-- ==== Sys2Proof/Word.lean ====
section
/-! DEFINITION. The value types of CORE: every one of them has the width a rule of the spec gives it
(00_scope.md R5, R9), and every value is unsigned (R9: "There are no signed quantities in this machine"). -/

namespace Sys2Proof

/-- An 8-bit value: a general register (R20), a memory byte (R26), an immediate `kk` (R71), the delay timer (R30). -/
abbrev Byte := BitVec 8

/-- A 16-bit value: the instruction word (R70), `I` (R22), `pc` (R23), a stack entry (R25). -/
abbrev Word := BitVec 16

/-- A 4-bit field that is used as a number: the sprite height `n` (R71, R79). -/
abbrev Nibble := BitVec 4

/-- A 12-bit address immediate `nnn` (R71, R79). -/
abbrev Addr := BitVec 12

/-- The index of a general register: R20 gives sixteen, and an index "comes only from a 4-bit instruction field or
from the constants 0 and 15, so a register access can never be out of range". -/
abbrev Reg := Fin 16

/-- V0, which `Bnnn` reads implicitly (R111). -/
abbrev v0 : Reg := 0

/-- VF, the flag register: register 15 (R21). -/
abbrev vf : Reg := 15

/-- `zext_16` of a byte (R9). -/
abbrev zextByte (b : Byte) : Word := b.setWidth 16

/-- `zext_16` of a 12-bit immediate (R9, R79). -/
abbrev zextAddr (a : Addr) : Word := a.setWidth 16

end Sys2Proof
end

