-- ==== Sys2Proof/Config.lean ====
section
/-! DEFINITION. What is fixed for the machine (00_scope.md R5: "The source fixes every size; none is left to the
implementation"), and the one value the spec leaves free: the random byte (41_load_add_random.md R124). -/

namespace Sys2Proof.Config

/-- `MEM_SIZE`: addresses 0 to 4095 (R5, R26). -/
abbrev memSize : Nat := 4096

/-- `LOAD_BASE`: Load copies the image from here upward (R5, R51, R211). -/
abbrev loadBase : Nat := 0x200

/-- `RESET_PC` (R5, R33). -/
abbrev resetPc : Word := 0x200#16

/-- `MAX_IMAGE` = 4096 - 512 (R5, R211). -/
abbrev maxImage : Nat := 3584

/-- `STACK_DEPTH` (R5, R25). -/
abbrev stackDepth : Nat := 16

/-- `FB_WIDTH` (R5, R27). -/
abbrev screenWidth : Nat := 64

/-- `FB_HEIGHT` (R5, R27). -/
abbrev screenHeight : Nat := 32

/-- `SPRITE_WIDTH` (R5, R152). -/
abbrev spriteWidth : Nat := 8

/-- `GLYPH_STRIDE` (R5, R163). -/
abbrev glyphStride : Word := 5#16

/-- FREE VALUE. The byte the `random_byte_unit` produces at its `k`-th draw (R124: "No rule constrains the value of
`rnd`: a model must treat it as a free draw"; decision D18). It has no body, so nothing can be proved of a value of it.
Log entry 2. -/
opaque randomByte : Nat → Byte

end Sys2Proof.Config
end

