-- ==== Sys2Proof/Syntax.lean ====
section
/-! DEFINITION. The instruction set: exactly the 32 rows of spec/opcode_table.json (30_encoding.md R73 to R77), one
constructor a row. An operand's type admits exactly what its field in the instruction word admits (R71, R79, R85), so
every term of `Instr` is the decoding of some word. -/

namespace Sys2Proof

/-- One instruction of CORE. `x`, `y`, `n`, `kk`, `nnn` are the fields of R71. -/
inductive Instr where
  /-- `00E0` CLS (R150). -/
  | cls
  /-- `00EE` RET (R106). -/
  | ret
  /-- `1nnn` JP nnn (R104). -/
  | jp (nnn : Addr)
  /-- `2nnn` CALL nnn (R105). -/
  | call (nnn : Addr)
  /-- `3xkk` SE Vx,kk (R107). -/
  | seImm (x : Reg) (kk : Byte)
  /-- `4xkk` SNE Vx,kk (R108). -/
  | sneImm (x : Reg) (kk : Byte)
  /-- `5xy0` SE Vx,Vy (R109). -/
  | seReg (x y : Reg)
  /-- `6xkk` LD Vx,kk (R120). -/
  | ldImm (x : Reg) (kk : Byte)
  /-- `7xkk` ADD Vx,kk (R121). -/
  | addImm (x : Reg) (kk : Byte)
  /-- `8xy0` LD Vx,Vy (R131). -/
  | ldReg (x y : Reg)
  /-- `8xy1` OR Vx,Vy (R132). -/
  | orReg (x y : Reg)
  /-- `8xy2` AND Vx,Vy (R133). -/
  | andReg (x y : Reg)
  /-- `8xy3` XOR Vx,Vy (R139). -/
  | xorReg (x y : Reg)
  /-- `8xy4` ADD Vx,Vy (R134). -/
  | addReg (x y : Reg)
  /-- `8xy5` SUB Vx,Vy (R135). -/
  | subReg (x y : Reg)
  /-- `8xy6` SHR Vx (R136). The `y` field is kept as the word's bits hold it; R85: "every value of `y` gives the same
  instruction". -/
  | shr (x y : Reg)
  /-- `8xy7` SUBN Vx,Vy (R137). -/
  | subnReg (x y : Reg)
  /-- `8xyE` SHL Vx (R138). The `y` field is kept and has no effect (R85). -/
  | shl (x y : Reg)
  /-- `9xy0` SNE Vx,Vy (R110). -/
  | sneReg (x y : Reg)
  /-- `Annn` LD I,nnn (R122). -/
  | ldI (nnn : Addr)
  /-- `Bnnn` JP V0,nnn (R111). -/
  | jpV0 (nnn : Addr)
  /-- `Cxkk` RND Vx,kk (R123). -/
  | rnd (x : Reg) (kk : Byte)
  /-- `Dxyn` DRW Vx,Vy,n (R152). -/
  | drw (x y : Reg) (n : Nibble)
  /-- `Ex9E` SKP Vx (R112). -/
  | skp (x : Reg)
  /-- `ExA1` SKNP Vx (R113). -/
  | sknp (x : Reg)
  /-- `Fx07` LD Vx,DT (R160). -/
  | ldVxDT (x : Reg)
  /-- `Fx15` LD DT,Vx (R161). -/
  | ldDTVx (x : Reg)
  /-- `Fx1E` ADD I,Vx (R162). -/
  | addI (x : Reg)
  /-- `Fx29` LD F,Vx (R163). -/
  | ldF (x : Reg)
  /-- `Fx33` LD B,Vx (R165). -/
  | ldB (x : Reg)
  /-- `Fx55` LD [I],Vx (R166). -/
  | storeRegs (x : Reg)
  /-- `Fx65` LD Vx,[I] (R167). -/
  | loadRegs (x : Reg)
  deriving DecidableEq, Repr

end Sys2Proof
end

