-- ==== Sys2Proof/WellFormed.lean ====
section
/-! DEFINITION. The well-formedness checks. A term of `Instr` is well formed by its types (Syntax.lean); what can be ill
formed is an instruction WORD (30_encoding.md R74, R80 to R82) and a program IMAGE (70_reset_and_hazards.md R211). The
word check is the table of `match` and `mask` values, written apart from the decoder's case tree, so that one can be held
against the other. -/

namespace Sys2Proof

/-- A row of the opcode map (R74, R75, R77): "a word `w` selects the row when `w & mask = match`". -/
structure OpcodeRow where
  mask    : Word
  pattern : Word
  deriving DecidableEq, Repr

/-- Does the word select the row (R74)? -/
def OpcodeRow.selects (r : OpcodeRow) (w : Word) : Bool := w &&& r.mask == r.pattern

/-- The row of the opcode map that an instruction belongs to (R74, R75, R77). -/
def Instr.row : Instr → OpcodeRow
  | .cls           => ⟨0xFFFF, 0x00E0⟩
  | .ret           => ⟨0xFFFF, 0x00EE⟩
  | .jp _          => ⟨0xF000, 0x1000⟩
  | .call _        => ⟨0xF000, 0x2000⟩
  | .seImm _ _     => ⟨0xF000, 0x3000⟩
  | .sneImm _ _    => ⟨0xF000, 0x4000⟩
  | .seReg _ _     => ⟨0xF00F, 0x5000⟩
  | .ldImm _ _     => ⟨0xF000, 0x6000⟩
  | .addImm _ _    => ⟨0xF000, 0x7000⟩
  | .ldReg _ _     => ⟨0xF00F, 0x8000⟩
  | .orReg _ _     => ⟨0xF00F, 0x8001⟩
  | .andReg _ _    => ⟨0xF00F, 0x8002⟩
  | .xorReg _ _    => ⟨0xF00F, 0x8003⟩
  | .addReg _ _    => ⟨0xF00F, 0x8004⟩
  | .subReg _ _    => ⟨0xF00F, 0x8005⟩
  | .shr _ _       => ⟨0xF00F, 0x8006⟩
  | .subnReg _ _   => ⟨0xF00F, 0x8007⟩
  | .shl _ _       => ⟨0xF00F, 0x800E⟩
  | .sneReg _ _    => ⟨0xF00F, 0x9000⟩
  | .ldI _         => ⟨0xF000, 0xA000⟩
  | .jpV0 _        => ⟨0xF000, 0xB000⟩
  | .rnd _ _       => ⟨0xF000, 0xC000⟩
  | .drw _ _ _     => ⟨0xF000, 0xD000⟩
  | .skp _         => ⟨0xF0FF, 0xE09E⟩
  | .sknp _        => ⟨0xF0FF, 0xE0A1⟩
  | .ldVxDT _      => ⟨0xF0FF, 0xF007⟩
  | .ldDTVx _      => ⟨0xF0FF, 0xF015⟩
  | .addI _        => ⟨0xF0FF, 0xF01E⟩
  | .ldF _         => ⟨0xF0FF, 0xF029⟩
  | .ldB _         => ⟨0xF0FF, 0xF033⟩
  | .storeRegs _   => ⟨0xF0FF, 0xF055⟩
  | .loadRegs _    => ⟨0xF0FF, 0xF065⟩

/-- Every row of the opcode map, in the table's order (R74, R75, R77; spec/opcode_table.json). -/
def opcodeRows : List OpcodeRow :=
  [Instr.cls.row, Instr.ret.row, (Instr.jp 0).row, (Instr.call 0).row, (Instr.seImm 0 0).row, (Instr.sneImm 0 0).row,
   (Instr.seReg 0 0).row, (Instr.ldImm 0 0).row, (Instr.addImm 0 0).row] ++
  [(Instr.ldReg 0 0).row, (Instr.orReg 0 0).row, (Instr.andReg 0 0).row, (Instr.xorReg 0 0).row,
   (Instr.addReg 0 0).row, (Instr.subReg 0 0).row, (Instr.shr 0 0).row, (Instr.subnReg 0 0).row,
   (Instr.shl 0 0).row] ++
  [(Instr.sneReg 0 0).row, (Instr.ldI 0).row, (Instr.jpV0 0).row, (Instr.rnd 0 0).row, (Instr.drw 0 0 0).row,
   (Instr.skp 0).row, (Instr.sknp 0).row] ++
  [(Instr.ldVxDT 0).row, (Instr.ldDTVx 0).row, (Instr.addI 0).row, (Instr.ldF 0).row, (Instr.ldB 0).row,
   (Instr.storeRegs 0).row, (Instr.loadRegs 0).row]

/-- A word is well formed when it is one of the 32 instructions' words (R82), that is, when it selects a row. -/
def wellFormedWord (w : Word) : Bool := opcodeRows.any fun r => r.selects w

/-- An image is well formed when it fits above `LOAD_BASE` (R211: "Fails with `ImageTooLarge` when length exceeds
4096−512 bytes"). -/
def wellFormedImage (image : List Byte) : Bool := decide (image.length ≤ Config.maxImage)

end Sys2Proof
end

