-- ==== Sys2Proof/Decode.lean ====
section
/-! DEFINITION. The instruction_decoder (30_encoding.md R70 to R82, R85) and, after it, the encoder (R86). Both are
written from the spec's own fields and case tree; decoding is total and reads no state (R73). -/

namespace Sys2Proof

/-! ## Fields of the instruction word (R71) -/

/-- `op = ir[15:12]`, the family. -/
def fieldOp (ir : Word) : Nibble := ir.extractLsb' 12 4

/-- `x = ir[11:8]`, the first register index. -/
def fieldX (ir : Word) : Reg := (ir.extractLsb' 8 4).toFin

/-- `y = ir[7:4]`, the second register index. -/
def fieldY (ir : Word) : Reg := (ir.extractLsb' 4 4).toFin

/-- `n = ir[3:0]`, the low nibble. -/
def fieldN (ir : Word) : Nibble := ir.extractLsb' 0 4

/-- `kk = ir[7:0]`, the immediate byte or tag. -/
def fieldKK (ir : Word) : Byte := ir.extractLsb' 0 8

/-- `nnn = ir[11:0]`, the address immediate. -/
def fieldNNN (ir : Word) : Addr := ir.extractLsb' 0 12

/-! ## Decoding (R73) -/

/-- What a word decodes to: one of the 32 instructions or one of the two illegal kinds (R73, R80, R81). -/
inductive Decoded where
  /-- One of the 32 instructions. -/
  | instr (i : Instr)
  /-- A word of the table of R80. -/
  | unknownOpcode
  /-- `5xyN` or `9xyN` with `N ≠ 0` (R81; for family 0x9 this is the spec's decision D11). -/
  | invalidOpcodeFormat
  deriving DecidableEq, Repr

/-- Family 0x0, "System" (R78). -/
def decodeSystem (ir : Word) : Decoded :=
  if ir = 0x00E0#16 then .instr .cls
  else if ir = 0x00EE#16 then .instr .ret
  else .unknownOpcode

/-- Families 0x5 and 0x9: "Low nibble must be 0" (R81). -/
def decodeZeroNibble (n : Nibble) (i : Instr) : Decoded :=
  if n = 0#4 then .instr i else .invalidOpcodeFormat

/-- Family 0x8, the ALU group, by its low nibble (R75). -/
def decodeAlu (x y : Reg) (n : Nibble) : Decoded :=
  match n with
  | 0x0#4 => .instr (.ldReg x y)
  | 0x1#4 => .instr (.orReg x y)
  | 0x2#4 => .instr (.andReg x y)
  | 0x3#4 => .instr (.xorReg x y)
  | 0x4#4 => .instr (.addReg x y)
  | 0x5#4 => .instr (.subReg x y)
  | 0x6#4 => .instr (.shr x y)
  | 0x7#4 => .instr (.subnReg x y)
  | 0xE#4 => .instr (.shl x y)
  | _     => .unknownOpcode

/-- Family 0xE, the key skips, by the tag byte (R76). -/
def decodeKey (x : Reg) (kk : Byte) : Decoded :=
  match kk with
  | 0x9E#8 => .instr (.skp x)
  | 0xA1#8 => .instr (.sknp x)
  | _      => .unknownOpcode

/-- Family 0xF, the misc/memory group, by the tag byte (R77). -/
def decodeMisc (x : Reg) (kk : Byte) : Decoded :=
  match kk with
  | 0x07#8 => .instr (.ldVxDT x)
  | 0x15#8 => .instr (.ldDTVx x)
  | 0x1E#8 => .instr (.addI x)
  | 0x29#8 => .instr (.ldF x)
  | 0x33#8 => .instr (.ldB x)
  | 0x55#8 => .instr (.storeRegs x)
  | 0x65#8 => .instr (.loadRegs x)
  | _      => .unknownOpcode

/-- `Decode(ir)`: "decode proceeds by family", then by the family's sub-form selector (R73). The last arm is family
0xF, the one value of the nibble that is left. -/
def decode (ir : Word) : Decoded :=
  match fieldOp ir with
  | 0x0#4 => decodeSystem ir
  | 0x1#4 => .instr (.jp (fieldNNN ir))
  | 0x2#4 => .instr (.call (fieldNNN ir))
  | 0x3#4 => .instr (.seImm (fieldX ir) (fieldKK ir))
  | 0x4#4 => .instr (.sneImm (fieldX ir) (fieldKK ir))
  | 0x5#4 => decodeZeroNibble (fieldN ir) (.seReg (fieldX ir) (fieldY ir))
  | 0x6#4 => .instr (.ldImm (fieldX ir) (fieldKK ir))
  | 0x7#4 => .instr (.addImm (fieldX ir) (fieldKK ir))
  | 0x8#4 => decodeAlu (fieldX ir) (fieldY ir) (fieldN ir)
  | 0x9#4 => decodeZeroNibble (fieldN ir) (.sneReg (fieldX ir) (fieldY ir))
  | 0xA#4 => .instr (.ldI (fieldNNN ir))
  | 0xB#4 => .instr (.jpV0 (fieldNNN ir))
  | 0xC#4 => .instr (.rnd (fieldX ir) (fieldKK ir))
  | 0xD#4 => .instr (.drw (fieldX ir) (fieldY ir) (fieldN ir))
  | 0xE#4 => decodeKey (fieldX ir) (fieldKK ir)
  | _     => decodeMisc (fieldX ir) (fieldKK ir)

/-! ## Words and bytes (R54, R70: the high byte is at the lower address) -/

/-- `ir = hi ++ lo`: the byte at the lower address is the high byte (R54). -/
def wordOfBytes (hi lo : Byte) : Word := hi ++ lo

/-- `ir[15:8]`, the byte stored at the lower address (R86). -/
def highByte (ir : Word) : Byte := ir.extractLsb' 8 8

/-- `ir[7:0]`, the byte stored at the next address (R86). -/
def lowByte (ir : Word) : Byte := ir.extractLsb' 0 8

/-- Decode the first instruction of a byte sequence and answer what is left of it; `none` says that fewer than the two
bytes of an instruction (R70) are there. -/
def decodeBytes : List Byte → Option (Decoded × List Byte)
  | hi :: lo :: rest => some (decode (wordOfBytes hi lo), rest)
  | _                => none

/-! ## Encoding (R72, R86) -/

/-- A register index in its 4-bit field. -/
def regBits (r : Reg) : Nibble := BitVec.ofFin (w := 4) r

/-- Format A: `op`, `nnn`. -/
def formatA (op : Nibble) (nnn : Addr) : Word := op ++ nnn

/-- Format K: `op`, `x`, `kk`. -/
def formatK (op : Nibble) (x : Reg) (kk : Byte) : Word := op ++ regBits x ++ kk

/-- Format R: `op`, `x`, `y`, `n`. -/
def formatR (op : Nibble) (x y : Reg) (n : Nibble) : Word := op ++ regBits x ++ regBits y ++ n

/-- Format T: `op`, `x`, and the fixed tag byte. -/
def formatT (op : Nibble) (x : Reg) (tag : Byte) : Word := op ++ regBits x ++ tag

/-- The word of an instruction: "place `op` in bits 15:12 and the operands in their fields" (R86), in the format R72
gives it. -/
def encode : Instr → Word
  | .cls           => 0x00E0#16
  | .ret           => 0x00EE#16
  | .jp nnn        => formatA 0x1 nnn
  | .call nnn      => formatA 0x2 nnn
  | .seImm x kk    => formatK 0x3 x kk
  | .sneImm x kk   => formatK 0x4 x kk
  | .seReg x y     => formatR 0x5 x y 0x0
  | .ldImm x kk    => formatK 0x6 x kk
  | .addImm x kk   => formatK 0x7 x kk
  | .ldReg x y     => formatR 0x8 x y 0x0
  | .orReg x y     => formatR 0x8 x y 0x1
  | .andReg x y    => formatR 0x8 x y 0x2
  | .xorReg x y    => formatR 0x8 x y 0x3
  | .addReg x y    => formatR 0x8 x y 0x4
  | .subReg x y    => formatR 0x8 x y 0x5
  | .shr x y       => formatR 0x8 x y 0x6
  | .subnReg x y   => formatR 0x8 x y 0x7
  | .shl x y       => formatR 0x8 x y 0xE
  | .sneReg x y    => formatR 0x9 x y 0x0
  | .ldI nnn       => formatA 0xA nnn
  | .jpV0 nnn      => formatA 0xB nnn
  | .rnd x kk      => formatK 0xC x kk
  | .drw x y n     => formatR 0xD x y n
  | .skp x         => formatT 0xE x 0x9E
  | .sknp x        => formatT 0xE x 0xA1
  | .ldVxDT x      => formatT 0xF x 0x07
  | .ldDTVx x      => formatT 0xF x 0x15
  | .addI x        => formatT 0xF x 0x1E
  | .ldF x         => formatT 0xF x 0x29
  | .ldB x         => formatT 0xF x 0x33
  | .storeRegs x   => formatT 0xF x 0x55
  | .loadRegs x    => formatT 0xF x 0x65

/-- The two bytes of an instruction in memory order (R86). -/
def encodeBytes (i : Instr) : List Byte := [highByte (encode i), lowByte (encode i)]

/-! ## The opcode table's numbering -/

/-- The instruction word that spec/opcode_table.json's bits `w` stand for: one 16-bit word, bit 0 its least significant
bit; bits at `nbits` and above are 0. -/
def tableWord (nbits w : Nat) : Word := BitVec.ofNat 16 (if nbits < 16 then w % 2 ^ nbits else w)

/-- The instruction the decoder reads from the table's bits, laid out in memory order (R54). -/
def decodeTableWord (nbits w : Nat) : Option Instr :=
  match decodeBytes [highByte (tableWord nbits w), lowByte (tableWord nbits w)] with
  | some (.instr i, _) => some i
  | _                  => none

end Sys2Proof
end

