-- ==== Sys2Proof/Machine/State.lean ====
section
/-! DEFINITION. The whole state of CORE as plain data (10_state.md R20 to R35, R43), what a step reports (60_exceptions.md
R181), the reasons a step can stop, and the state after reset (R33, R210). Every field is listed in INVENTORY.md under
`## State`. -/

namespace Sys2Proof.Machine

/-- A run-time condition with the information it reports (R181). A condition is an OUTPUT of a step; the machine goes on
(R180, R190, R193). -/
inductive Condition where
  /-- Raised by decode: the word is of R80 (R182). `pc` is `pc0 + 2`. -/
  | unknownOpcode (ir pc : Word)
  /-- Raised by decode: `5xyN` or `9xyN`, `N ≠ 0` (R183). -/
  | invalidOpcodeFormat (ir pc : Word)
  /-- Raised by `2nnn` with a full stack (R184); `pc` is the address that was not pushed. -/
  | stackOverflow (ir pc : Word)
  /-- Raised by `00EE` with an empty stack (R185). -/
  | stackUnderflow (ir pc : Word)
  /-- Raised by the fetch when `pc0 > 4094` (R101, R186). -/
  | fetchOutOfRange (pc0 : Word)
  /-- Raised by `Dxyn`, `Fx33`, `Fx55`, `Fx65`, `Ex9E`, `ExA1` (R186). Together with `fetchOutOfRange` this is the
  spec's one condition `AddressOutOfRange`, which reports different information in the two cases (R181). -/
  | addressOutOfRange (ir pc : Word)
  deriving DecidableEq, Repr

/-- The memory array: (address, byte) pairs in one canonical form, `Memory.wf` in Machine/Ops.lean (R26). -/
abbrev Memory := List Host.Cell

/-- The pixel buffer: 32 rows of 64 one-bit cells, row-major (R27). -/
abbrev Screen := Vector (Vector Bool 64) 32

/-- Why a step stops. No rule of the spec stops the machine (R193), so no state that a run reaches raises one. -/
inductive Fault where
  /-- Raised by `00EE` when `SP` is 17 to 31, a value of the 5-bit register that R35 does not list among its legal
  values: the slot `stack[SP - 1]` does not exist. SAFE: no run reaches such a state (R34 (a)), and stopping proves
  nothing. Log entry 4. -/
  | stackSlotAbsent
  deriving DecidableEq, Repr

/-- Why a step is refused. -/
inductive Refusal where
  /-- Raised by an arm of `exec` whose instruction has no meaning yet; no arm of this model does. SAFE. -/
  | notModelled (mnemonic : String)
  deriving DecidableEq, Repr

/-- The state of CORE. The last four fields are the MODEL's own: what a step outputs, the record of it, and the two that
stand for the random source (log entries 1, 2, 3). -/
structure State where
  /-- V0 to VF (R20, R21). -/
  v        : Vector Byte 16
  /-- The index register `I` (R22). -/
  i        : Word
  /-- The program counter (R23). -/
  pc       : Word
  /-- The sixteen slots of the call stack (R25). -/
  stack    : Vector Word 16
  /-- The stack pointer: the depth, 0 to 16, 5 bits wide (R25). -/
  sp       : BitVec 5
  /-- The memory array (R26). -/
  mem      : Memory
  /-- The pixel buffer (R27). -/
  fb       : Screen
  /-- The redraw signal (R28). -/
  redraw   : Bool
  /-- The clear signal (R28). -/
  clear    : Bool
  /-- The key state, `true` = pressed (R29). -/
  key      : Vector Bool 16
  /-- The delay timer (R30). -/
  dt       : Byte
  /-- The condition output of the latest step, `none` when it completed normally (R181). -/
  cond     : Option Condition
  /-- Every condition reported since reset, newest first: the record R193 and 93_implementation_defined.md U1 ask a
  model to keep. -/
  condLog  : List Condition
  /-- Bytes the host has injected into the random source, next first (R124: "allow injection of a seeded source"). -/
  rndQueue : List Byte
  /-- How many free draws the random source has made (R124). -/
  rndDraws : Nat
  deriving DecidableEq, Repr

/-- The state after reset (R33, R210): everything zero and `pc = 0x200`. The spec gives every register its value; the
four model fields start empty (log entries 1, 2, 3). -/
def State.reset : State where
  v        := Vector.replicate 16 0#8
  i        := 0#16
  pc       := Config.resetPc
  stack    := Vector.replicate 16 0#16
  sp       := 0#5
  mem      := []
  fb       := Vector.replicate 32 (Vector.replicate 64 false)
  redraw   := false
  clear    := false
  key      := Vector.replicate 16 false
  dt       := 0#8
  cond     := none
  condLog  := []
  rndQueue := []
  rndDraws := 0

/-- What a step, and the meaning of an instruction, answers. -/
abbrev Result := Host.Outcome State Fault Refusal

end Sys2Proof.Machine
end

