-- ==== Sys2Proof/Machine/Ops.lean ====
section
/-! DEFINITION. The named operations over memory, registers, the call stack and the pixel buffer, reporting a condition
(this machine's "taking an exception"), and the fetch. Every write to the state goes through one of these. -/

namespace Sys2Proof.Machine

/-! ## The memory array (20_memory.md) -/

/-- What an address with no entry reads as: every byte is 0 after reset (R33). -/
def Memory.unlisted : Byte := 0#8

/-- The byte at an address. -/
def Memory.byteAt : Memory → Nat → Byte
  | [], _            => Memory.unlisted
  | (k, c) :: m, a => if k = a then c else Memory.byteAt m a

/-- The memory without an entry for address `a`. -/
def Memory.without (m : Memory) (a : Nat) : Memory := m.filter fun cell => cell.1 != a

/-- The memory with an entry for address `a`, which has none yet, in its place by address. -/
def Memory.place : Memory → Nat → Byte → Memory
  | [], a, b          => [(a, b)]
  | (k, c) :: m, a, b => if k < a then (k, c) :: Memory.place m a b else (a, b) :: (k, c) :: m

/-- `mem[a] <- b` (R53), keeping the canonical form: a byte that an unlisted address reads as needs no entry. -/
def Memory.put (m : Memory) (a : Nat) (b : Byte) : Memory :=
  if b = Memory.unlisted then m.without a else (m.without a).place a b

/-- Bytes at ascending addresses from `a` (R54, R58). -/
def Memory.putAll (m : Memory) (a : Nat) : List Byte → Memory
  | []      => m
  | b :: bs => Memory.putAll (m.put a b) (a + 1) bs

/-- Addresses strictly rising from `lo` on and inside the array, and no entry equal to an unlisted address's byte. -/
def Memory.wfFrom (lo : Nat) : Memory → Bool
  | []            => true
  | (k, c) :: m => decide (lo ≤ k) && decide (k < Config.memSize) && decide (c ≠ Memory.unlisted) && Memory.wfFrom (k + 1) m

/-- The canonical form of memory: equal memories are equal lists. -/
def Memory.wf (m : Memory) : Bool := Memory.wfFrom 0 m

/-! ## Access primitives (R52, R53, R65) -/

/-- May bytes `a` to `a + n - 1` be accessed? The sum is exact, never reduced (R56); an access of no bytes needs no
address (R153 (a)). -/
def inRange (a n : Nat) : Bool := decide (n = 0 ∨ a + n ≤ Config.memSize)

/-- `MemRead(addr, 1)` (R52); `none` stands for `AddressOutOfRange`. -/
def State.memRead1 (s : State) (a : Nat) : Option Byte :=
  if inRange a 1 then some (s.mem.byteAt a) else none

/-- `MemRead(addr, 2)` (R52): "the byte at the lower address in bits 15:8". -/
def State.memRead2 (s : State) (a : Nat) : Option Word :=
  if inRange a 2 then some (wordOfBytes (s.mem.byteAt a) (s.mem.byteAt (a + 1))) else none

/-- The `n` bytes from `a` on, the whole range checked first (R65, R59). -/
def State.loadBytes (s : State) (a n : Nat) : Option (List Byte) :=
  if inRange a n then some ((List.range n).map fun k => s.mem.byteAt (a + k)) else none

/-- The state with the memory array replaced. -/
def State.setMem (m : Memory) (s : State) : State := { s with mem := m }

/-- Store bytes from `a` on, the whole range checked first (R65); one byte is `MemWrite(addr, 1, v)` (R53). -/
def State.storeBytes (s : State) (a : Nat) (bytes : List Byte) : Option State :=
  if inRange a bytes.length then some (s.setMem (s.mem.putAll a bytes)) else none

/-! ## Registers -/

/-- `V[x]` (R20). -/
def State.readV (s : State) (x : Reg) : Byte := s.v[x]

/-- `V[x] <- b` (R20). -/
def State.writeV (x : Reg) (b : Byte) (s : State) : State := { s with v := s.v.set x b }

/-- `V[k] <- bytes[k]` for every `k` the list reaches; the other registers keep their values (R167). -/
def State.writeBlock (bytes : List Byte) (s : State) : State :=
  { s with v := Vector.ofFn fun k => (bytes[k.val]?).getD s.v[k] }

/-- `I <- w` (R22). -/
def State.setI (w : Word) (s : State) : State := { s with i := w }

/-- `pc <- target` (R23). -/
def State.setPc (w : Word) (s : State) : State := { s with pc := w }

/-- `DT <- b` (R30). -/
def State.setDT (b : Byte) (s : State) : State := { s with dt := b }

/-- `if c then pc <- (pc + 2) mod 65536`: a skip (R107 to R113). -/
def State.skipIf (c : Bool) (s : State) : State := if c then s.setPc (s.pc + 2) else s

/-! ## Reporting a condition (60_exceptions.md R180 to R193)

This is the machine's whole "exception entry": "nothing is saved anywhere, no mode changes, no mask changes, the stack is
not used, control goes nowhere special" (R190). There is no return from it (R192). -/

/-- The step reports `c`. Only the model's own fields change: the output of the step (log entry 1) and the record. -/
def State.report (c : Condition) (s : State) : State := { s with cond := some c, condLog := c :: s.condLog }

/-- An execute-phase `AddressOutOfRange(ir, pc)`: the report is all that happens, `pc` stays `pc0 + 2` (R65, R186). -/
def outOfRange (i : Instr) (s : State) : Result := .next (s.report (.addressOutOfRange (encode i) s.pc))

/-- The numeric code of a run-time condition (R181, decision D14). -/
def Condition.code : Condition → BitVec 3
  | .unknownOpcode _ _       => 1#3
  | .invalidOpcodeFormat _ _ => 2#3
  | .stackOverflow _ _       => 3#3
  | .stackUnderflow _ _      => 4#3
  | .fetchOutOfRange _       => 5#3
  | .addressOutOfRange _ _   => 5#3

/-- The 3-bit condition port after a step: 0 is `None` (R181). -/
def State.condCode (s : State) : BitVec 3 :=
  match s.cond with
  | none   => 0#3
  | some c => c.code

/-! ## The call stack (R25, R102, R103) -/

/-- The state with the call stack replaced. -/
def State.setStack (stack : Vector Word 16) (sp : BitVec 5) (s : State) : State := { s with stack := stack, sp := sp }

/-- `Push(a)` (R102); `none` stands for the overflow report, which leaves the stack and `SP` unchanged. -/
def State.push (a : Word) (s : State) : Option State :=
  if Config.stackDepth ≤ s.sp.toNat then none
  else some (s.setStack (s.stack.setIfInBounds s.sp.toNat a) (s.sp + 1))

/-- What `Pop()` answers. -/
inductive Popped where
  /-- Underflow: nothing usable is returned (R103; 90_conflicts.md C1). -/
  | empty
  /-- `SP` is above 16, so `stack[SP - 1]` does not exist: no run reaches this (R34 (a)). -/
  | absent
  /-- The popped address and the state after it. -/
  | word (a : Word) (s : State)
  deriving DecidableEq, Repr

/-- `Pop()` (R103): "decrements depth and returns the popped address, zeroing the vacated slot". -/
def State.pop (s : State) : Popped :=
  if s.sp = 0 then .empty
  else
    match s.stack[s.sp.toNat - 1]? with
    | none   => .absent
    | some a => .word a (s.setStack (s.stack.setIfInBounds (s.sp.toNat - 1) 0#16) (s.sp - 1))

/-! ## The framebuffer_writer (43_display.md R150, R151) -/

/-- A cell of the pixel buffer: its row and its column. -/
abbrev Cell := Fin 32 × Fin 64

/-- The number of a cell: "the cell of column `c` and row `r` is `fb[r × 64 + c]`" (R27, R151). -/
def Cell.index (p : Cell) : Nat := p.1.val * Config.screenWidth + p.2.val

/-- Is the pixel on? -/
def Screen.pixel (fb : Screen) (p : Cell) : Bool := fb[p.1][p.2]

/-- All cells 0 (R150). -/
def Screen.blank : Screen := Vector.replicate 32 (Vector.replicate 64 false)

/-- `XorPixel(p)` (R151): the buffer after it, and whether the cell went from 1 to 0. -/
def Screen.xorPixel (fb : Screen) (p : Cell) : Screen × Bool :=
  (fb.set p.1 (fb[p.1].set p.2 (!fb[p.1][p.2])), fb.pixel p)

/-- `XorPixel` of every cell in turn, and whether any of them collided (R152). -/
def Screen.xorCells (fb : Screen) : List Cell → Screen × Bool
  | []      => (fb, false)
  | p :: ps =>
    let first := fb.xorPixel p
    let rest := Screen.xorCells first.1 ps
    (rest.1, first.2 || rest.2)

/-- The state with the pixel buffer replaced. -/
def State.setScreen (fb : Screen) (s : State) : State := { s with fb := fb }

/-- `redraw <- 1` (R28, R152). -/
def State.raiseRedraw (s : State) : State := { s with redraw := true }

/-- `clear <- 1` (R28, R150). -/
def State.raiseClear (s : State) : State := { s with clear := true }

/-! ## The random_byte_unit (41_load_add_random.md R124) -/

/-- The byte the unit supplies to the next `Cxkk`: the next injected byte if the host has injected one, else a free
draw (log entry 2). -/
def State.rnd (s : State) : Byte :=
  match s.rndQueue with
  | b :: _ => b
  | []     => Config.randomByte s.rndDraws

/-- The unit after it has been invoked: "advances by exactly one element per executed `Cxkk`" (R124). -/
def State.advanceRnd (s : State) : State :=
  match s.rndQueue with
  | _ :: bs => { s with rndQueue := bs }
  | []      => { s with rndDraws := s.rndDraws + 1 }

/-! ## The step's own operations (40_control_flow.md R100, R101) -/

/-- The fetch: `ir <- MemRead(pc, 2)`, `none` when `pc > 4094`. -/
def State.fetch (s : State) : Option Word := s.memRead2 s.pc.toNat

/-- What every step does between fetch and decode: `pc <- (pc0 + 2) mod 65536`, and the condition output of the step
before is gone (R100, R181). -/
def State.advance (s : State) : State := { s with pc := s.pc + 2, cond := none }

/-- A fetch out of range: the report, and "changes no state at all; `pc` is not advanced" (R101). -/
def fetchFailed (s : State) : Result := .next (s.report (.fetchOutOfRange s.pc))

/-- A word of R80, `s` being the advanced state (R182). -/
def unknownWord (ir : Word) (s : State) : Result := .next (s.report (.unknownOpcode ir s.pc))

/-- `5xyN` or `9xyN` with `N ≠ 0`, `s` being the advanced state (R183). -/
def invalidWord (ir : Word) (s : State) : Result := .next (s.report (.invalidOpcodeFormat ir s.pc))

end Sys2Proof.Machine
end

