-- ==== Sys2Proof/Machine/Flags.lean ====
section
/-! DEFINITION. The alu as a function (42_alu.md R130) and every flag computation of the spec (10_state.md R21): the
machine has no flags register, a flag is a value 0 or 1 written to VF. -/

namespace Sys2Proof.Machine

/-- The byte a flag writes to VF (R21). -/
def flagByte (f : Bool) : Byte := if f then 1#8 else 0#8

/-- Carry out of bit 7: 1 if `a + b > 255` (R134). -/
def carryOf (a b : Byte) : Bool := decide (255 < a.toNat + b.toNat)

/-- No borrow in `a - b`: 1 if `a ≥ b`, "The test is `≥`, not `>`" (R135, R137). -/
def noBorrow (a b : Byte) : Bool := decide (b.toNat ≤ a.toNat)

/-- The bit a right shift moves out, taken before the shift (R136). -/
def shiftedOutRight (a : Byte) : Bool := a.getLsbD 0

/-- The bit a left shift moves out, taken before the shift (R138). -/
def shiftedOutLeft (a : Byte) : Bool := a.getLsbD 7

/-- The nine operations of family 0x8 (R130). -/
inductive AluOp where
  | mov | or | and | xor | add | sub | shr | subn | shl
  deriving DecidableEq, Repr

/-- `Alu(op, a, b) -> (result, flag)`; the flag is `none` where the operation writes none (R130). -/
def alu (op : AluOp) (a b : Byte) : Byte × Option Bool :=
  match op with
  | .mov  => (b, none)
  | .or   => (a ||| b, none)
  | .and  => (a &&& b, none)
  | .xor  => (a ^^^ b, none)
  | .add  => (a + b, some (carryOf a b))
  | .sub  => (a - b, some (noBorrow a b))
  | .shr  => (a >>> 1, some (shiftedOutRight a))
  | .subn => (b - a, some (noBorrow b a))
  | .shl  => (a <<< 1, some (shiftedOutLeft a))

/-- Write an alu outcome: "`VF <- flag` and then `V[x] <- result`, in that order"; with no flag only `V[x] <- result`
(R130, R24). -/
def State.writeAlu (x : Reg) (out : Byte × Option Bool) (s : State) : State :=
  match out.2 with
  | none   => s.writeV x out.1
  | some f => (s.writeV vf (flagByte f)).writeV x out.1

/-- One instruction of family 0x8: both operands are read before the first write (R24, R130). -/
def aluStep (op : AluOp) (x y : Reg) (s : State) : Result := .next (s.writeAlu x (alu op (s.readV x) (s.readV y)))

end Sys2Proof.Machine
end

