-- ==== Sys2Proof/Machine/Alu.lean ====
section
/-! DEFINITION. The ALU group, family 0x8 (42_alu.md R131 to R139). -/

namespace Sys2Proof.Machine

/-- `8xy0` LD Vx,Vy (R131). -/
def execLdReg (x y : Reg) (s : State) : Result := aluStep .mov x y s

/-- `8xy1` OR Vx,Vy (R132). -/
def execOrReg (x y : Reg) (s : State) : Result := aluStep .or x y s

/-- `8xy2` AND Vx,Vy (R133). -/
def execAndReg (x y : Reg) (s : State) : Result := aluStep .and x y s

/-- `8xy3` XOR Vx,Vy (R139). -/
def execXorReg (x y : Reg) (s : State) : Result := aluStep .xor x y s

/-- `8xy4` ADD Vx,Vy (R134). -/
def execAddReg (x y : Reg) (s : State) : Result := aluStep .add x y s

/-- `8xy5` SUB Vx,Vy (R135). -/
def execSubReg (x y : Reg) (s : State) : Result := aluStep .sub x y s

/-- `8xy6` SHR Vx (R136): the alu's second operand does not enter the result, so `V[y]` has no effect (R85). -/
def execShr (x y : Reg) (s : State) : Result := aluStep .shr x y s

/-- `8xy7` SUBN Vx,Vy (R137). -/
def execSubnReg (x y : Reg) (s : State) : Result := aluStep .subn x y s

/-- `8xyE` SHL Vx (R138): `V[y]` has no effect (R85). -/
def execShl (x y : Reg) (s : State) : Result := aluStep .shl x y s

end Sys2Proof.Machine
end

