-- ==== Sys2Proof/Machine/Operands.lean ====
section
/-! DEFINITION. Every operand form of the instructions: the effective addresses, the register block, the key index, the
jump targets, the glyph address, the BCD digits, and the cells a sprite covers (30_encoding.md R79). -/

namespace Sys2Proof.Machine

/-- The effective address `I + k`, an exact integer (R56). -/
def State.indexed (s : State) (k : Nat) : Nat := s.i.toNat + k

/-- The addresses `I` to `I + n - 1`, in order (R54, R58). -/
def State.indexedRange (s : State) (n : Nat) : List Nat := (List.range n).map s.indexed

/-- How many registers the block `V[0..x]` has: `x` "used as a count" (R166, R167). -/
def blockLength (x : Reg) : Nat := x.val + 1

/-- The block `V[0..x]` (R166). -/
def State.block (s : State) (x : Reg) : List Byte := s.v.toList.take (blockLength x)

/-- `key[V[x]]`, `none` when `V[x] > 15`: "The index is *not* masked to 4 bits" (R112, R113, decision D12). -/
def State.keyOf (s : State) (x : Reg) : Option Bool := s.key[(s.readV x).toNat]?

/-- The target of `Bnnn`: `(zext_16(nnn) + zext_16(V[0])) mod 65536` (R111). -/
def State.offsetTarget (s : State) (nnn : Addr) : Word := zextAddr nnn + zextByte (s.readV v0)

/-- The address of a glyph: `5 × zext_16(V[x])` (R163). -/
def State.glyphAddress (s : State) (x : Reg) : Word := Config.glyphStride * zextByte (s.readV x)

/-- `Bcd(v) -> (h, t, o)` of the bcd_converter, in the order the digits are stored (R41, R164). -/
def bcd (b : Byte) : List Byte := [b / 100#8, b / 10#8 % 10#8, b % 10#8]

/-- The origin row of a sprite: `V[y] mod 32` (R152). -/
def State.originRow (s : State) (y : Reg) : Nat := (s.readV y).toNat % Config.screenHeight

/-- The origin column of a sprite: `V[x] mod 64` (R152). -/
def State.originCol (s : State) (x : Reg) : Nat := (s.readV x).toNat % Config.screenWidth

/-- The cell at a row and a column, each wrapped on its own (R152, R153 (c)). -/
def wrapCell (row col : Nat) : Cell := (Fin.ofNat 32 row, Fin.ofNat 64 col)

/-- The columns of a sprite row whose bit is 1: "bit 7 is the leftmost column, c = 0" (R152). -/
def setColumns (row : Byte) : List Nat := (List.range Config.spriteWidth).filter fun c => row.getLsbD (7 - c)

/-- The cells one sprite row covers. -/
def rowCells (row col : Nat) (bits : Byte) : List Cell := (setColumns bits).map fun c => wrapCell row (col + c)

/-- The cells a sprite covers, one row of bytes after the other, from origin row `row` and column `col` (R152). -/
def spriteCells (row col : Nat) : List Byte → List Cell
  | []      => []
  | b :: bs => rowCells row col b ++ spriteCells (row + 1) col bs

end Sys2Proof.Machine
end

