-- ==== Sys2Proof/Machine/Control.lean ====
section
/-! DEFINITION. Control flow: `00EE`, `1nnn`, `2nnn`, `Bnnn` and the skips (40_control_flow.md R104 to R113). In every
meaning `s.pc` is the advanced program counter `pc0 + 2` (R100, R216). -/

namespace Sys2Proof.Machine

/-- `00EE` RET (R106; on an empty stack R185 and 90_conflicts.md C1: `pc` stays `pc0 + 2`). -/
def execRet (s : State) : Result :=
  match s.pop with
  | .empty     => .next (s.report (.stackUnderflow (encode .ret) s.pc))
  | .absent    => .fault .stackSlotAbsent
  | .word a s' => .next (s'.setPc a)

/-- `1nnn` JP nnn (R104). -/
def execJp (nnn : Addr) (s : State) : Result := .next (s.setPc (zextAddr nnn))

/-- `2nnn` CALL nnn (R105). With a full stack the push is a no-op that reports, and the jump is still taken (R184,
decision D10). -/
def execCall (nnn : Addr) (s : State) : Result :=
  match s.push s.pc with
  | none    => .next ((s.report (.stackOverflow (encode (.call nnn)) s.pc)).setPc (zextAddr nnn))
  | some s' => .next (s'.setPc (zextAddr nnn))

/-- `Bnnn` JP V0,nnn (R111). -/
def execJpV0 (nnn : Addr) (s : State) : Result := .next (s.setPc (s.offsetTarget nnn))

/-- `3xkk` SE Vx,kk (R107). -/
def execSeImm (x : Reg) (kk : Byte) (s : State) : Result := .next (s.skipIf (s.readV x == kk))

/-- `4xkk` SNE Vx,kk (R108). -/
def execSneImm (x : Reg) (kk : Byte) (s : State) : Result := .next (s.skipIf (s.readV x != kk))

/-- `5xy0` SE Vx,Vy (R109). -/
def execSeReg (x y : Reg) (s : State) : Result := .next (s.skipIf (s.readV x == s.readV y))

/-- `9xy0` SNE Vx,Vy (R110). -/
def execSneReg (x y : Reg) (s : State) : Result := .next (s.skipIf (s.readV x != s.readV y))

/-- `Ex9E` SKP Vx (R112). -/
def execSkp (x : Reg) (s : State) : Result :=
  match s.keyOf x with
  | none         => outOfRange (.skp x) s
  | some pressed => .next (s.skipIf pressed)

/-- `ExA1` SKNP Vx (R113). -/
def execSknp (x : Reg) (s : State) : Result :=
  match s.keyOf x with
  | none         => outOfRange (.sknp x) s
  | some pressed => .next (s.skipIf (!pressed))

end Sys2Proof.Machine
end

