-- ==== Sys2Proof/Machine/Display.lean ====
section
/-! DEFINITION. The display instructions (43_display.md R150, R152). -/

namespace Sys2Proof.Machine

/-- `00E0` CLS (R150): every cell 0 and `clear <- 1`; `redraw` is not raised. -/
def execCls (s : State) : Result := .next (s.setScreen Screen.blank).raiseClear

/-- `Dxyn` DRW Vx,Vy,n (R152): the origin and the sprite rows are read first, the whole range checked before any effect
(R65, R24); then the set bits are XORed in, VF receives the collision flag, and `redraw <- 1` "even if no pixel
changed". -/
def execDrw (x y : Reg) (n : Nibble) (s : State) : Result :=
  match s.loadBytes (s.indexed 0) n.toNat with
  | none      => outOfRange (.drw x y n) s
  | some rows =>
    let drawn := s.fb.xorCells (spriteCells (s.originRow y) (s.originCol x) rows)
    .next ((s.writeV vf (flagByte drawn.2)).setScreen drawn.1).raiseRedraw

end Sys2Proof.Machine
end

