-- ==== Sys2Proof/Machine/LoadAddRandom.lean ====
section
/-! DEFINITION. Immediate loads and adds, the index load, and the random byte (41_load_add_random.md R120 to R123). -/

namespace Sys2Proof.Machine

/-- `6xkk` LD Vx,kk (R120). -/
def execLdImm (x : Reg) (kk : Byte) (s : State) : Result := .next (s.writeV x kk)

/-- `7xkk` ADD Vx,kk (R121): modulo 256, "no flag side effect". -/
def execAddImm (x : Reg) (kk : Byte) (s : State) : Result := .next (s.writeV x (s.readV x + kk))

/-- `Annn` LD I,nnn (R122). -/
def execLdI (nnn : Addr) (s : State) : Result := .next (s.setI (zextAddr nnn))

/-- `Cxkk` RND Vx,kk (R123): `V[x] <- rnd & kk`, and the unit has been invoked once (R124). -/
def execRnd (x : Reg) (kk : Byte) (s : State) : Result := .next (s.advanceRnd.writeV x (s.rnd &&& kk))

end Sys2Proof.Machine
end

