-- ==== Sys2Proof/Machine/Misc.lean ====
section
/-! DEFINITION. The misc/memory group, family 0xF (44_misc_memory.md R160 to R167). -/

namespace Sys2Proof.Machine

/-- `Fx07` LD Vx,DT (R160). -/
def execLdVxDT (x : Reg) (s : State) : Result := .next (s.writeV x s.dt)

/-- `Fx15` LD DT,Vx (R161). -/
def execLdDTVx (x : Reg) (s : State) : Result := .next (s.setDT (s.readV x))

/-- `Fx1E` ADD I,Vx (R162): modulo 65536, VF is not written. -/
def execAddI (x : Reg) (s : State) : Result := .next (s.setI (s.i + zextByte (s.readV x)))

/-- `Fx29` LD F,Vx (R163): the full 8-bit value times 5. -/
def execLdF (x : Reg) (s : State) : Result := .next (s.setI (s.glyphAddress x))

/-- `Fx33` LD B,Vx (R165). -/
def execLdB (x : Reg) (s : State) : Result :=
  match s.storeBytes (s.indexed 0) (bcd (s.readV x)) with
  | none    => outOfRange (.ldB x) s
  | some s' => .next s'

/-- `Fx55` LD [I],Vx (R166): `I` is unchanged. -/
def execStoreRegs (x : Reg) (s : State) : Result :=
  match s.storeBytes (s.indexed 0) (s.block x) with
  | none    => outOfRange (.storeRegs x) s
  | some s' => .next s'

/-- `Fx65` LD Vx,[I] (R167): all bytes are read first, `I` is unchanged. -/
def execLoadRegs (x : Reg) (s : State) : Result :=
  match s.loadBytes (s.indexed 0) (blockLength x) with
  | none       => outOfRange (.loadRegs x) s
  | some bytes => .next (s.writeBlock bytes)

end Sys2Proof.Machine
end

