-- ==== Sys2Proof/Machine/Step.lean ====
section
/-! DEFINITION. One step (40_control_flow.md R100) and placing an instruction where the next step fetches it. -/

namespace Sys2Proof.Machine

/-- `Step` (R100): fetch, advance `pc` by 2, decode, execute. The random byte of the step is in the state (log entry 2). -/
def step (s : State) : Host.Outcome State Fault Refusal :=
  match s.fetch with
  | none    => fetchFailed s
  | some ir =>
    match decode ir with
    | .unknownOpcode       => unknownWord ir s.advance
    | .invalidOpcodeFormat => invalidWord ir s.advance
    | .instr i             => exec i s.advance

/-- The state with the opcode table's word stored where the next step fetches it: at `pc` when both bytes fit in memory,
else at the entry point (log entry 6). -/
def State.withFetchWord (s : State) (nbits w : Nat) : State :=
  let s' := if inRange s.pc.toNat 2 then s else s.setPc Config.resetPc
  let ir := tableWord nbits w
  s'.setMem (s'.mem.putAll s'.pc.toNat [highByte ir, lowByte ir])

end Sys2Proof.Machine
end

