-- ==== Sys2Proof/Machine/HostOps.lean ====
section
/-! DEFINITION. The host's operations (60_exceptions.md R195 to R201; 70_reset_and_hazards.md R210 to R212). Each is atomic
and happens between steps (R195, R217, decision D19): `step` never calls one. -/

namespace Sys2Proof.Machine

/-- Reset (R210): the state after power-on, at any time between steps (decision D25). The random source's state after
reset is unspecified, so the model's two fields for it go on: draws after a reset are not the draws before it. -/
def State.hostReset (s : State) : State := { State.reset with rndQueue := s.rndQueue, rndDraws := s.rndDraws }

/-- What Load returns (R181, R211). -/
inductive LoadOutcome where
  /-- `Ok`, with the state after the copy. -/
  | ok (s : State)
  /-- `ImageTooLarge` with the image length: no state changes (R187). -/
  | imageTooLarge (length : Nat)
  deriving DecidableEq, Repr

/-- The numeric code of what Load returns: 6 for `ImageTooLarge` (R181, decision D14). The spec gives a successful Load no
number; 0 for it is the MODEL's choice (DESIGN CHOICE, log entry 24). -/
def LoadOutcome.code : LoadOutcome → BitVec 3
  | .ok _            => 0#3
  | .imageTooLarge _ => 6#3

/-- Load(`image`) (R211): the image's bytes from 0x200 upward and nothing else, in whatever state (R212, decision D20). -/
def State.load (image : List Byte) (s : State) : LoadOutcome :=
  if wellFormedImage image then .ok (s.setMem (s.mem.putAll Config.loadBase image)) else .imageTooLarge image.length

/-- KeyWrite(`k`, `v`) (R196). -/
def State.keyWrite (k : Fin 16) (v : Bool) (s : State) : State := { s with key := s.key.set k v }

/-- TimerTick (R197): one down, not below 0 (the floor is decision D16). -/
def State.timerTick (s : State) : State := if s.dt = 0 then s else s.setDT (s.dt - 1)

/-- SignalReadClear (R198): the pair (`redraw`, `clear`), and both are 0 afterwards. -/
def State.signalReadClear (s : State) : (Bool × Bool) × State :=
  ((s.redraw, s.clear), { s with redraw := false, clear := false })

/-- PixelRead (R199): the 2048 cells in row-major order, each as a byte 0 or 1. -/
def State.pixelRead (s : State) : List Byte :=
  (s.fb.toList.map fun row => row.toList.map fun on => if on then 1#8 else 0#8).flatten

/-- What the inspection accessors reach (R200, decision D21): every piece of state of 10_state.md but the random
source's. -/
inductive InspectItem where
  | register (x : Reg)
  | index
  | programCounter
  | stackPointer
  | stackSlot (k : Fin 16)
  | memory (a : Fin 4096)
  | pixel (p : Cell)
  | redraw
  | clear
  | key (k : Fin 16)
  | delayTimer
  deriving DecidableEq, Repr

/-- Inspect (R200): the item's value; the state is not changed. -/
def State.inspect (s : State) : InspectItem → Nat
  | .register x     => (s.readV x).toNat
  | .index          => s.i.toNat
  | .programCounter => s.pc.toNat
  | .stackPointer   => s.sp.toNat
  | .stackSlot k    => s.stack[k].toNat
  | .memory a       => (s.mem.byteAt a.val).toNat
  | .pixel p        => (s.fb.pixel p).toNat
  | .redraw         => s.redraw.toNat
  | .clear          => s.clear.toNat
  | .key k          => s.key[k].toNat
  | .delayTimer     => s.dt.toNat

/-- The host gives the random source a list of bytes to supply, one for each executed `Cxkk` (R124). -/
def State.injectRandom (bytes : List Byte) (s : State) : State := { s with rndQueue := bytes }

/-- Step(`rnd`) (R201): one step that is given the byte `rnd`; only `Cxkk` reads it (R124), and it serves no later step. -/
def stepWith (rnd : Byte) (s : State) : Result :=
  match step (s.injectRandom [rnd]) with
  | .next t    => .next (t.injectRandom s.rndQueue)
  | .fault r   => .fault r
  | .refused r => .refused r

/-- The host operations that change state (R195). -/
inductive HostOp where
  | reset
  | load (image : List Byte)
  | keyWrite (k : Fin 16) (v : Bool)
  | timerTick
  | signalReadClear
  | injectRandom (bytes : List Byte)
  deriving DecidableEq, Repr

/-- The state after a host operation; a Load that fails leaves it as it was (R187). -/
def HostOp.apply (op : HostOp) (s : State) : State :=
  match op with
  | .reset              => s.hostReset
  | .load image         =>
    match s.load image with
    | .ok t            => t
    | .imageTooLarge _ => s
  | .keyWrite k v       => s.keyWrite k v
  | .timerTick          => s.timerTick
  | .signalReadClear    => s.signalReadClear.2
  | .injectRandom bytes => s.injectRandom bytes

end Sys2Proof.Machine
end

