-- ==== Sys2Proof/Safety.lean ====
section
/-! DEFINITION. The words the claims are stated in: what an instruction leaves unchanged, the invariant of every run
(10_state.md R34), the states a run reaches, a run without a reported condition, and the end of a run. -/

namespace Sys2Proof.Machine

/-- The pieces of state outside the general registers and memory that an instruction may be said to change. -/
inductive Part where
  | index | pc | stack | screen | redraw | clear | timer | random | reports
  deriving DecidableEq, Repr

/-- The frame of an instruction (R10: "A step changes exactly the state its rules name and nothing else"): `t` holds
what `s` holds, but for the registers in `regs`, the bytes at the addresses in `stored`, and the pieces in `parts`. The
key state is always the same: the core never writes it (R29). -/
structure SameExcept (regs : List Reg) (stored : List Nat) (parts : List Part) (s t : State) : Prop where
  registers : ∀ k : Reg, k ∉ regs → t.v[k] = s.v[k]
  memory    : ∀ a : Nat, a ∉ stored → t.mem.byteAt a = s.mem.byteAt a
  index     : Part.index ∉ parts → t.i = s.i
  pc        : Part.pc ∉ parts → t.pc = s.pc
  stack     : Part.stack ∉ parts → t.stack = s.stack ∧ t.sp = s.sp
  screen    : Part.screen ∉ parts → t.fb = s.fb
  redraw    : Part.redraw ∉ parts → t.redraw = s.redraw
  clear     : Part.clear ∉ parts → t.clear = s.clear
  timer     : Part.timer ∉ parts → t.dt = s.dt
  random    : Part.random ∉ parts → t.rndQueue = s.rndQueue ∧ t.rndDraws = s.rndDraws
  reports   : Part.reports ∉ parts → t.cond = s.cond ∧ t.condLog = s.condLog
  keys      : t.key = s.key

/-- The registers an instruction may write: its destination, and VF where it writes a flag (R21). -/
def writtenRegs : Instr → List Reg
  | .cls | .ret | .jp _ | .call _ | .jpV0 _ | .ldI _ => []
  | .seImm _ _ | .sneImm _ _ | .seReg _ _ | .sneReg _ _ | .skp _ | .sknp _ => []
  | .ldDTVx _ | .addI _ | .ldF _ | .ldB _ | .storeRegs _ => []
  | .ldImm x _ | .addImm x _ | .rnd x _ | .ldVxDT x => [x]
  | .ldReg x _ | .orReg x _ | .andReg x _ | .xorReg x _ => [x]
  | .addReg x _ | .subReg x _ | .shr x _ | .subnReg x _ | .shl x _ => [x, vf]
  | .drw _ _ _ => [vf]
  | .loadRegs x => (List.finRange 16).take (blockLength x)

/-- The addresses an instruction may store to: only `Fx33` and `Fx55` store (R168). -/
def storedAddrs (s : State) : Instr → List Nat
  | .ldB _ => s.indexedRange 3
  | .storeRegs x => s.indexedRange (blockLength x)
  | .cls | .ret | .jp _ | .call _ | .jpV0 _ | .ldI _ => []
  | .seImm _ _ | .sneImm _ _ | .seReg _ _ | .sneReg _ _ | .skp _ | .sknp _ => []
  | .ldImm _ _ | .addImm _ _ | .rnd _ _ | .ldVxDT _ | .ldDTVx _ | .addI _ | .ldF _ => []
  | .ldReg _ _ | .orReg _ _ | .andReg _ _ | .xorReg _ _ => []
  | .addReg _ _ | .subReg _ _ | .shr _ _ | .subnReg _ _ | .shl _ _ => []
  | .drw _ _ _ | .loadRegs _ => []

/-- The other pieces of state an instruction may change (the table at the head of 10_state.md; R181). -/
def writtenParts : Instr → List Part
  | .cls => [.screen, .clear]
  | .ret | .call _ => [.pc, .stack, .reports]
  | .jp _ | .jpV0 _ => [.pc]
  | .seImm _ _ | .sneImm _ _ | .seReg _ _ | .sneReg _ _ => [.pc]
  | .skp _ | .sknp _ => [.pc, .reports]
  | .ldI _ | .addI _ | .ldF _ => [.index]
  | .rnd _ _ => [.random]
  | .drw _ _ _ => [.screen, .redraw, .reports]
  | .ldDTVx _ => [.timer]
  | .ldB _ | .storeRegs _ | .loadRegs _ => [.reports]
  | .ldImm _ _ | .addImm _ _ | .ldVxDT _ => []
  | .ldReg _ _ | .orReg _ _ | .andReg _ _ | .xorReg _ _ => []
  | .addReg _ _ | .subReg _ _ | .shr _ _ | .subnReg _ _ | .shl _ _ => []

/-- The step that ends in `t` has reported `c`, and `c` is the only report added to the record of `s`. -/
def Reported (c : Condition) (s t : State) : Prop := t.cond = some c ∧ t.condLog = c :: s.condLog

/-- Every word that selects the row (`w & mask = pattern`, R74) decodes to the instruction `f` reads from its fields. -/
def DecodesAs (mask pattern : Word) (f : Word → Instr) : Prop :=
  ∀ w : Word, w &&& mask = pattern → decode w = .instr (f w)

/-- The stack pointer has one of its legal values, 0 to 16 (R25, R35). -/
def StackDepthLegal (s : State) : Prop := s.sp.toNat ≤ Config.stackDepth

/-- The invariant of every reachable state (R34 (a), (b), (d), (e); (c) and (f) hold by the types), with the canonical
form of memory. -/
structure Inv (s : State) : Prop where
  memory  : s.mem.wf = true
  depth   : StackDepthLegal s
  vacant  : ∀ k : Fin 16, s.sp.toNat ≤ k.val → s.stack[k] = 0#16
  entries : ∀ k : Fin 16, k.val < s.sp.toNat → 2 ≤ s.stack[k].toNat ∧ s.stack[k].toNat ≤ 4096
  pcBound : s.pc.toNat ≤ 0x10FE

/-- A state reachable from reset by steps and host operations, a step being given any random byte (R34, R124). -/
inductive Reachable : State → Prop where
  | reset : Reachable State.reset
  | step (s t : State) : Reachable s → step s = .next t → Reachable t
  | stepWith (rnd : Byte) (s t : State) : Reachable s → stepWith rnd s = .next t → Reachable t
  | host (op : HostOp) (s : State) : Reachable s → Reachable (op.apply s)

/-- No step since reset has reported a condition (R193; 93_implementation_defined.md U1). -/
def CleanRun (s : State) : Prop := s.condLog = []

/-- The end of a run as R219 suggests it: the next instruction is `JP` to its own address (decision D24). -/
def AtEndOfRun (s : State) : Prop := s.fetch = some (0x1000#16 ||| s.pc)

/-- Is the sprite bit that lands on cell `p` set? Sprite row `r` of `n`, at address `I + r`, lands on screen row
`(oy + r) mod 32`, and its column `c` (bit `7 - c`) on screen column `(ox + c) mod 64` (R152). -/
def Covers (s : State) (oy ox n : Nat) (p : Cell) : Prop :=
  ∃ r c : Nat, r < n ∧ c < 8 ∧ p.1.val = (oy + r) % 32 ∧ p.2.val = (ox + c) % 64 ∧
    (s.mem.byteAt (s.i.toNat + r)).getLsbD (7 - c) = true

end Sys2Proof.Machine
end

