-- ==== Sys2Proof/Certificates/Slice0/Obligations.lean ====
section
/-! DEFINITION. The statements for the provers. `t` is the state an instruction leaves; `s` is the state `exec` runs on,
whose `pc` is the advanced program counter `pc0 + 2` (40_control_flow.md R100). A statement about an instruction of the
opcode table gives its encoding (`DecodesAs`), its result and its frame (`SameExcept`). A report is `Reported`: the
condition output of R181 and, of the model's own, its place in the State and the record (log entry 1). -/

open Sys2Proof Sys2Proof.Machine

/-! ## Encoding and decoding (30_encoding.md) -/

/-- R73, R86: the decoder reads back every instruction that the encoder writes, with every operand, and leaves the bytes
after it. -/
def Obligations.EncodeThenDecodeGivesInstruction : Prop :=
  ∀ i : Instr, decode (encode i) = .instr i ∧
    ∀ rest : List Byte, decodeBytes (encodeBytes i ++ rest) = some (.instr i, rest)

/-- R73, R74, R86: a word that is an instruction is the only word of it; decoding drops no bit. -/
def Obligations.DecodeThenEncodeGivesWord : Prop :=
  ∀ (w : Word) (i : Instr), decode w = .instr i → encode i = w

/-- R74, R75, R77: "a word `w` selects the row when `w & mask = match`. No two rows overlap." The decoder's case tree and
the table of masks say the same of every word. -/
def Obligations.DecodeAgreesWithOpcodeMap : Prop :=
  (∀ (w : Word) (r : OpcodeRow), r ∈ opcodeRows → (r.selects w = true ↔ ∃ i, decode w = .instr i ∧ i.row = r)) ∧
  (∀ (w : Word) (r r' : OpcodeRow), r ∈ opcodeRows → r' ∈ opcodeRows → r.selects w = true → r'.selects w = true → r = r')

/-- R80, R81: the words of the two illegal kinds are exactly the listed ones (`InvalidOpcodeFormat` for family 0x9 is the
spec's decision D11). -/
def Obligations.IllegalWordsAreTheListedOnes : Prop :=
  ∀ w : Word,
    (decode w = .unknownOpcode ↔
      (w.toNat / 4096 = 0x0 ∧ w.toNat ≠ 0x00E0 ∧ w.toNat ≠ 0x00EE) ∨
      (w.toNat / 4096 = 0x8 ∧ w.toNat % 16 ∈ [0x8, 0x9, 0xA, 0xB, 0xC, 0xD, 0xF]) ∨
      (w.toNat / 4096 = 0xE ∧ w.toNat % 256 ∉ [0x9E, 0xA1]) ∨
      (w.toNat / 4096 = 0xF ∧ w.toNat % 256 ∉ [0x07, 0x15, 0x1E, 0x29, 0x33, 0x55, 0x65])) ∧
    (decode w = .invalidOpcodeFormat ↔ (w.toNat / 4096 = 0x5 ∨ w.toNat / 4096 = 0x9) ∧ w.toNat % 16 ≠ 0)

/-- R71 to R78, R86: words written out bit by bit from the patterns, one or more of every family of operands. -/
def Obligations.WrittenOutWordsDecode : Prop :=
  decode 0b0000000011100000#16 = .instr .cls ∧
  decode 0b0000000011101110#16 = .instr .ret ∧
  decode 0b0001001000110100#16 = .instr (.jp 0x234) ∧
  decode 0b0010001100000000#16 = .instr (.call 0x300) ∧
  decode 0b0011001100101010#16 = .instr (.seImm 3 0x2A) ∧
  decode 0b1001000100100000#16 = .instr (.sneReg 1 2) ∧
  decode 0b0110000000000101#16 = .instr (.ldImm 0 5) ∧
  decode 0b1000000100100111#16 = .instr (.subnReg 1 2) ∧
  decode 0b1000000111111110#16 = .instr (.shl 1 15) ∧
  decode 0b1011111111111111#16 = .instr (.jpV0 0xFFF) ∧
  decode 0b1101000000000101#16 = .instr (.drw 0 0 5) ∧
  decode 0b1110010010100001#16 = .instr (.sknp 4) ∧
  decode 0b1111001001100101#16 = .instr (.loadRegs 2) ∧
  decode 0b1111000000001010#16 = .unknownOpcode ∧
  decode 0b0101000100100001#16 = .invalidOpcodeFormat

/-! ## The step and the memory array (40_control_flow.md R100, R101; 20_memory.md) -/

/-- R100: when the two bytes at `pc` decode to an instruction, the step is that instruction's meaning at the state whose
`pc` is 2 further and whose condition output is empty; nothing else is different there. -/
def Obligations.StepRunsDecodedInstruction : Prop :=
  ∀ (s : State) (i : Instr), s.pc.toNat ≤ 4094 →
    decode (s.mem.byteAt s.pc.toNat ++ s.mem.byteAt (s.pc.toNat + 1)) = .instr i →
    step s = exec i s.advance ∧ s.advance.pc = s.pc + 2 ∧ s.advance.cond = none ∧ s.advance.condLog = s.condLog ∧
      SameExcept [] [] [.pc, .reports] s s.advance

/-- R52: `MemRead(addr, 1)` and `MemRead(addr, 2)`, and where each answers nothing. -/
def Obligations.MemReadChecksRangeAndIsBigEndian : Prop :=
  ∀ (s : State) (a : Nat),
    (a ≤ 4095 → s.memRead1 a = some (s.mem.byteAt a)) ∧
    (4095 < a → s.memRead1 a = none) ∧
    (a + 1 ≤ 4095 → ∃ w : Word, s.memRead2 a = some w ∧
      w.toNat = (s.mem.byteAt a).toNat * 256 + (s.mem.byteAt (a + 1)).toNat) ∧
    (4095 < a + 1 → s.memRead2 a = none)

/-- R53: a one-byte write changes its byte "and no other byte or state", and above 4095 it writes nothing; "seen by
every later read and fetch". -/
def Obligations.MemWriteChangesOneByte : Prop :=
  ∀ (s : State) (a : Nat) (b : Byte),
    (4095 < a → s.storeBytes a [b] = none) ∧
    (a ≤ 4095 → ∃ t, s.storeBytes a [b] = some t ∧ t.memRead1 a = some b ∧ SameExcept [] [a] [] s t ∧
      (s.pc.toNat = a → a + 1 ≤ 4095 → t.fetch = some (b ++ s.mem.byteAt (a + 1))) ∧
      (s.pc.toNat + 1 = a → t.fetch = some (s.mem.byteAt s.pc.toNat ++ b)))

/-- R182, R181: an `UnknownOpcode` word advances `pc` by 2 and reports; nothing else changes. The word 0x0000 of unloaded
memory is one. (What the report carries is the spec's decision D15, log entry 17.) -/
def Obligations.UnknownWordOnlyReports : Prop :=
  decode 0x0000#16 = .unknownOpcode ∧
  ∀ (s : State) (ir : Word), s.pc.toNat ≤ 4094 → ir = s.mem.byteAt s.pc.toNat ++ s.mem.byteAt (s.pc.toNat + 1) →
    decode ir = .unknownOpcode →
    ∃ t, step s = .next t ∧ t.pc = s.pc + 2 ∧ Reported (.unknownOpcode ir (s.pc + 2)) s t ∧
      SameExcept [] [] [.pc, .reports] s t

/-- R183: an `InvalidOpcodeFormat` word advances `pc` by 2 and reports; no comparison, no skip. (What the report carries
is the spec's decision D15, and the kind for family 0x9 its decision D11.) -/
def Obligations.InvalidFormatWordOnlyReports : Prop :=
  ∀ (s : State) (ir : Word), s.pc.toNat ≤ 4094 → ir = s.mem.byteAt s.pc.toNat ++ s.mem.byteAt (s.pc.toNat + 1) →
    decode ir = .invalidOpcodeFormat →
    ∃ t, step s = .next t ∧ t.pc = s.pc + 2 ∧ Reported (.invalidOpcodeFormat ir (s.pc + 2)) s t ∧
      SameExcept [] [] [.pc, .reports] s t

/-- R101: a fetch with `pc > 4094` reports and changes no state at all, `pc` included, so the next step does the same
(the spec's decision D4). -/
def Obligations.FetchOutOfRangeStaysPut : Prop :=
  ∀ s : State, 4094 < s.pc.toNat →
    ∃ t, step s = .next t ∧ Reported (.fetchOutOfRange s.pc) s t ∧ SameExcept [] [] [.reports] s t

/-! ## Control flow (40_control_flow.md) -/

/-- R104. -/
def Obligations.JpLoadsTarget : Prop :=
  DecodesAs 0xF000 0x1000 (fun w => .jp (fieldNNN w)) ∧
  ∀ (nnn : Addr) (s : State), ∃ t, exec (.jp nnn) s = .next t ∧ t.pc.toNat = nnn.toNat ∧ SameExcept [] [] [.pc] s t

/-- R102, R103: `Push`, `Pop`, the round trip from any depth with room for two; a push on a full stack and a pop on an
empty one answer nothing, their instructions (R105, R106) report it, and the stack and `SP` are unchanged. (What the reports
carry is R181, the spec's decision D15, log entry 17.) -/
def Obligations.StackPushesAndPops : Prop :=
  (∀ (s : State) (a : Word) (nnn : Addr), 16 ≤ s.sp.toNat → s.push a = none ∧
    ∃ t, exec (.call nnn) s = .next t ∧ Reported (.stackOverflow (encode (.call nnn)) s.pc) s t ∧
      t.stack = s.stack ∧ t.sp = s.sp) ∧
  (∀ (s : State) (a : Word) (room : s.sp.toNat < 16), ∃ t, s.push a = some t ∧ t.stack[s.sp.toNat] = a ∧
    (∀ k : Fin 16, k.val ≠ s.sp.toNat → t.stack[k] = s.stack[k]) ∧ t.sp.toNat = s.sp.toNat + 1 ∧
    SameExcept [] [] [.stack] s t) ∧
  (∀ s : State, s.sp.toNat = 0 → s.pop = .empty ∧
    ∃ t, exec .ret s = .next t ∧ Reported (.stackUnderflow 0x00EE#16 s.pc) s t ∧ t.stack = s.stack ∧ t.sp = s.sp) ∧
  (∀ s : State, ∀ k : Fin 16, s.sp.toNat = k.val + 1 → ∃ t, s.pop = .word s.stack[k] t ∧ t.stack[k] = 0#16 ∧
    (∀ j : Fin 16, j ≠ k → t.stack[j] = s.stack[j]) ∧ t.sp.toNat = k.val ∧ SameExcept [] [] [.stack] s t) ∧
  (∀ (s : State) (a b : Word), s.sp.toNat + 2 ≤ 16 → ∃ s₁ s₂ s₃ s₄, s.push a = some s₁ ∧ s₁.push b = some s₂ ∧
    s₂.pop = .word b s₃ ∧ s₃.pop = .word a s₄ ∧ s₄.sp = s.sp)

/-- R105, R184: with room, `CALL` pushes the advanced `pc` and jumps; with a full stack it reports the address it did not
push and still jumps (the spec's decision D10). -/
def Obligations.CallPushesAndJumps : Prop :=
  DecodesAs 0xF000 0x2000 (fun w => .call (fieldNNN w)) ∧
  (∀ (nnn : Addr) (s : State) (room : s.sp.toNat < 16), ∃ t, exec (.call nnn) s = .next t ∧ t.pc.toNat = nnn.toNat ∧
    t.stack[s.sp.toNat] = s.pc ∧ (∀ k : Fin 16, k.val ≠ s.sp.toNat → t.stack[k] = s.stack[k]) ∧
    t.sp.toNat = s.sp.toNat + 1 ∧ SameExcept [] [] [.pc, .stack] s t) ∧
  (∀ (nnn : Addr) (s : State), 16 ≤ s.sp.toNat → ∃ t, exec (.call nnn) s = .next t ∧ t.pc.toNat = nnn.toNat ∧
    Reported (.stackOverflow (encode (.call nnn)) s.pc) s t ∧ SameExcept [] [] [.pc, .reports] s t)

/-- R106: `RET` pops into `pc` and zeroes the slot; with an empty stack it reports and leaves `pc` at `pc0 + 2`. -/
def Obligations.RetPopsOrReportsUnderflow : Prop :=
  DecodesAs 0xFFFF 0x00EE (fun _ => .ret) ∧
  (∀ (s : State) (k : Fin 16), s.sp.toNat = k.val + 1 → ∃ t, exec .ret s = .next t ∧ t.pc = s.stack[k] ∧
    t.stack[k] = 0#16 ∧ (∀ j : Fin 16, j ≠ k → t.stack[j] = s.stack[j]) ∧ t.sp.toNat = k.val ∧
    SameExcept [] [] [.pc, .stack] s t) ∧
  (∀ s : State, s.sp.toNat = 0 → ∃ t, exec .ret s = .next t ∧ Reported (.stackUnderflow 0x00EE#16 s.pc) s t ∧
    SameExcept [] [] [.reports] s t)

/-- The model's choice, log entry 4: with `SP` above its legal range 0 to 16 (R35), which no run reaches, `RET` stops by
name. -/
def Obligations.RetBeyondTheSlotsFaults : Prop :=
  ∀ s : State, 16 < s.sp.toNat → exec .ret s = .fault .stackSlotAbsent

/-- R111: the offset is always V0, and the sum is not reduced to 12 bits. -/
def Obligations.JpV0AddsV0 : Prop :=
  DecodesAs 0xF000 0xB000 (fun w => .jpV0 (fieldNNN w)) ∧
  ∀ (nnn : Addr) (s : State), ∃ t, exec (.jpV0 nnn) s = .next t ∧ t.pc.toNat = nnn.toNat + s.v[v0].toNat ∧
    SameExcept [] [] [.pc] s t

/-- R107, R108: "if condition holds, advance PC by 2 more". -/
def Obligations.ImmediateSkipsCompareVx : Prop :=
  DecodesAs 0xF000 0x3000 (fun w => .seImm (fieldX w) (fieldKK w)) ∧
  DecodesAs 0xF000 0x4000 (fun w => .sneImm (fieldX w) (fieldKK w)) ∧
  ∀ (x : Reg) (kk : Byte) (s : State),
    (∃ t, exec (.seImm x kk) s = .next t ∧ t.pc = (if s.v[x] = kk then s.pc + 2 else s.pc) ∧
      SameExcept [] [] [.pc] s t) ∧
    (∃ t, exec (.sneImm x kk) s = .next t ∧ t.pc = (if s.v[x] = kk then s.pc else s.pc + 2) ∧
      SameExcept [] [] [.pc] s t)

/-- R109: the skip on equal registers; a word `5xyN` with `N ≠ 0` is not this instruction and does not skip. -/
def Obligations.SeRegSkipsOnEqual : Prop :=
  DecodesAs 0xF00F 0x5000 (fun w => .seReg (fieldX w) (fieldY w)) ∧
  (∀ (x y : Reg) (s : State), ∃ t, exec (.seReg x y) s = .next t ∧
    t.pc = (if s.v[x] = s.v[y] then s.pc + 2 else s.pc) ∧ SameExcept [] [] [.pc] s t) ∧
  (∀ w : Word, w &&& 0xF000 = 0x5000 → w &&& 0x000F ≠ 0 → decode w = .invalidOpcodeFormat) ∧
  (∀ s : State, s.pc.toNat ≤ 4094 →
    decode (s.mem.byteAt s.pc.toNat ++ s.mem.byteAt (s.pc.toNat + 1)) = .invalidOpcodeFormat →
    ∃ t, step s = .next t ∧ t.pc = s.pc + 2)

/-- R110: the skip on different registers; a word `9xyN` with `N ≠ 0` decodes to `InvalidOpcodeFormat` (the spec's
decision D11). -/
def Obligations.SneRegSkipsOnDifferent : Prop :=
  DecodesAs 0xF00F 0x9000 (fun w => .sneReg (fieldX w) (fieldY w)) ∧
  (∀ (x y : Reg) (s : State), ∃ t, exec (.sneReg x y) s = .next t ∧
    t.pc = (if s.v[x] = s.v[y] then s.pc else s.pc + 2) ∧ SameExcept [] [] [.pc] s t) ∧
  (∀ w : Word, w &&& 0xF000 = 0x9000 → w &&& 0x000F ≠ 0 → decode w = .invalidOpcodeFormat)

/-- R112, R113: the key skips read `key[V[x]]`; an index above 15 is reported and not masked (the spec's decision D12). -/
def Obligations.KeySkipsReadTheKeyArray : Prop :=
  DecodesAs 0xF0FF 0xE09E (fun w => .skp (fieldX w)) ∧
  DecodesAs 0xF0FF 0xE0A1 (fun w => .sknp (fieldX w)) ∧
  (∀ (x : Reg) (s : State) (k : Fin 16), s.v[x].toNat = k.val →
    (∃ t, exec (.skp x) s = .next t ∧ t.pc = (if s.key[k] = true then s.pc + 2 else s.pc) ∧
      SameExcept [] [] [.pc] s t) ∧
    (∃ t, exec (.sknp x) s = .next t ∧ t.pc = (if s.key[k] = true then s.pc else s.pc + 2) ∧
      SameExcept [] [] [.pc] s t)) ∧
  (∀ (x : Reg) (s : State) (i : Instr), 15 < s.v[x].toNat → i ∈ [Instr.skp x, Instr.sknp x] →
    ∃ t, exec i s = .next t ∧ Reported (.addressOutOfRange (encode i) s.pc) s t ∧ SameExcept [] [] [.reports] s t)

/-! ## Immediate loads and adds, index load, random (41_load_add_random.md) -/

/-- R120. -/
def Obligations.LdImmLoadsImmediate : Prop :=
  DecodesAs 0xF000 0x6000 (fun w => .ldImm (fieldX w) (fieldKK w)) ∧
  ∀ (x : Reg) (kk : Byte) (s : State), ∃ t, exec (.ldImm x kk) s = .next t ∧ t.v[x] = kk ∧ SameExcept [x] [] [] s t

/-- R121: "(register + immediate) mod 256; no flag side effect". -/
def Obligations.AddImmWrapsWithoutFlag : Prop :=
  DecodesAs 0xF000 0x7000 (fun w => .addImm (fieldX w) (fieldKK w)) ∧
  ∀ (x : Reg) (kk : Byte) (s : State), ∃ t, exec (.addImm x kk) s = .next t ∧
    t.v[x].toNat = (s.v[x].toNat + kk.toNat) % 256 ∧ SameExcept [x] [] [] s t

/-- R122. -/
def Obligations.LdILoadsAddress : Prop :=
  DecodesAs 0xF000 0xA000 (fun w => .ldI (fieldNNN w)) ∧
  ∀ (nnn : Addr) (s : State), ∃ t, exec (.ldI nnn) s = .next t ∧ t.i.toNat = nnn.toNat ∧ SameExcept [] [] [.index] s t

/-- R123, R124: `V[x]` receives the supplied byte AND `kk`. Where the bytes come from is the model's (log entry 2): the
next injected byte, else a free draw; either way the unit advances by one. -/
def Obligations.RndMasksTheSuppliedByte : Prop :=
  DecodesAs 0xF000 0xC000 (fun w => .rnd (fieldX w) (fieldKK w)) ∧
  (∀ (x : Reg) (kk b : Byte) (bs : List Byte) (s : State), s.rndQueue = b :: bs →
    ∃ t, exec (.rnd x kk) s = .next t ∧ t.v[x] = b &&& kk ∧ t.rndQueue = bs ∧ t.rndDraws = s.rndDraws ∧
      SameExcept [x] [] [.random] s t) ∧
  (∀ (x : Reg) (kk : Byte) (s : State), s.rndQueue = [] →
    ∃ t, exec (.rnd x kk) s = .next t ∧ t.v[x] = Config.randomByte s.rndDraws &&& kk ∧ t.rndQueue = [] ∧
      t.rndDraws = s.rndDraws + 1 ∧ SameExcept [x] [] [.random] s t)

/-- R124, R201: "only `Cxkk` reads it; every other instruction ignores it": a step that does not execute `Cxkk` ends the
same whatever random byte it is given (how a step is given one is the model's choice, log entry 2). -/
def Obligations.OnlyRndLearnsTheRandomByte : Prop :=
  ∀ (s : State) (r r' : Byte),
    (∀ x kk, s.fetch.map decode ≠ some (.instr (.rnd x kk))) → stepWith r s = stepWith r' s

/-! ## The ALU group (42_alu.md) -/

/-- R130: the table of the nine operations, and the order of the two writes. -/
def Obligations.AluComputesTheTable : Prop :=
  (∀ a b : Byte,
    alu .mov a b = (b, none) ∧ alu .or a b = (a ||| b, none) ∧ alu .and a b = (a &&& b, none) ∧
    alu .xor a b = (a ^^^ b, none) ∧
    ((alu .add a b).1.toNat = (a.toNat + b.toNat) % 256 ∧ (alu .add a b).2 = some (decide (a.toNat + b.toNat > 255))) ∧
    ((alu .sub a b).1.toNat = (a.toNat + 256 - b.toNat) % 256 ∧ (alu .sub a b).2 = some (decide (a.toNat ≥ b.toNat))) ∧
    ((alu .shr a b).1.toNat = a.toNat / 2 ∧ (alu .shr a b).2 = some (decide (a.toNat % 2 = 1))) ∧
    ((alu .subn a b).1.toNat = (b.toNat + 256 - a.toNat) % 256 ∧
      (alu .subn a b).2 = some (decide (b.toNat ≥ a.toNat))) ∧
    ((alu .shl a b).1.toNat = 2 * a.toNat % 256 ∧ (alu .shl a b).2 = some (decide (a.toNat / 128 = 1)))) ∧
  (∀ (x : Reg) (r : Byte) (s : State), (s.writeAlu x (r, none)).v[x] = r ∧
    SameExcept [x] [] [] s (s.writeAlu x (r, none))) ∧
  (∀ (x : Reg) (r : Byte) (f : Bool) (s : State), (s.writeAlu x (r, some f)).v[x] = r ∧
    (x ≠ vf → (s.writeAlu x (r, some f)).v[vf] = if f then 1#8 else 0#8) ∧
    SameExcept [x, vf] [] [] s (s.writeAlu x (r, some f)))

/-- R131, R132, R133, R139: the move and the logic operations write `V[x]` only; VF is left unchanged unless it is
`V[x]`. -/
def Obligations.MoveAndLogicWriteOnlyVx : Prop :=
  DecodesAs 0xF00F 0x8000 (fun w => .ldReg (fieldX w) (fieldY w)) ∧
  DecodesAs 0xF00F 0x8001 (fun w => .orReg (fieldX w) (fieldY w)) ∧
  DecodesAs 0xF00F 0x8002 (fun w => .andReg (fieldX w) (fieldY w)) ∧
  DecodesAs 0xF00F 0x8003 (fun w => .xorReg (fieldX w) (fieldY w)) ∧
  ∀ (x y : Reg) (s : State),
    (∃ t, exec (.ldReg x y) s = .next t ∧ t.v[x] = s.v[y] ∧ SameExcept [x] [] [] s t) ∧
    (∃ t, exec (.orReg x y) s = .next t ∧ t.v[x] = s.v[x] ||| s.v[y] ∧ SameExcept [x] [] [] s t) ∧
    (∃ t, exec (.andReg x y) s = .next t ∧ t.v[x] = s.v[x] &&& s.v[y] ∧ SameExcept [x] [] [] s t) ∧
    (∃ t, exec (.xorReg x y) s = .next t ∧ t.v[x] = s.v[x] ^^^ s.v[y] ∧ SameExcept [x] [] [] s t)

/-- R134: the sum modulo 256 in `V[x]`, the carry in VF. With `x = 15` the sum stays in VF: that form is in the table of
R141, the spec's decision D3 (log entry 7). -/
def Obligations.AddRegWritesSumAndCarry : Prop :=
  DecodesAs 0xF00F 0x8004 (fun w => .addReg (fieldX w) (fieldY w)) ∧
  ∀ (x y : Reg) (s : State), ∃ t, exec (.addReg x y) s = .next t ∧
    t.v[x].toNat = (s.v[x].toNat + s.v[y].toNat) % 256 ∧
    (x ≠ vf → t.v[vf].toNat = if s.v[x].toNat + s.v[y].toNat > 255 then 1 else 0) ∧
    SameExcept [x, vf] [] [] s t

/-- R135, R137, R141: the difference modulo 256 in `V[x]`, 1 in VF when no borrow occurs ("The test is `≥`, not `>`").
The forms that name VF follow the spec's decision D3: operands read first, the result written last. -/
def Obligations.SubtractsWriteDifferenceAndNoBorrow : Prop :=
  DecodesAs 0xF00F 0x8005 (fun w => .subReg (fieldX w) (fieldY w)) ∧
  DecodesAs 0xF00F 0x8007 (fun w => .subnReg (fieldX w) (fieldY w)) ∧
  ∀ (x y : Reg) (s : State),
    (∃ t, exec (.subReg x y) s = .next t ∧ t.v[x].toNat = (s.v[x].toNat + 256 - s.v[y].toNat) % 256 ∧
      (x ≠ vf → t.v[vf].toNat = if s.v[x].toNat ≥ s.v[y].toNat then 1 else 0) ∧ SameExcept [x, vf] [] [] s t) ∧
    (∃ t, exec (.subnReg x y) s = .next t ∧ t.v[x].toNat = (s.v[y].toNat + 256 - s.v[x].toNat) % 256 ∧
      (x ≠ vf → t.v[vf].toNat = if s.v[y].toNat ≥ s.v[x].toNat then 1 else 0) ∧ SameExcept [x, vf] [] [] s t)

/-- R136, R138: the shifts by one, the bit shifted out in VF, "taken from the value before the shift"; the `y` field is
ignored. With `x = 15` the shifted value stays in VF: that form is in the table of R141, the spec's decision D3 (log
entry 7). -/
def Obligations.ShiftsMoveTheBitOutToVF : Prop :=
  DecodesAs 0xF00F 0x8006 (fun w => .shr (fieldX w) (fieldY w)) ∧
  DecodesAs 0xF00F 0x800E (fun w => .shl (fieldX w) (fieldY w)) ∧
  ∀ (x y : Reg) (s : State),
    (∃ t, exec (.shr x y) s = .next t ∧ t.v[x].toNat = s.v[x].toNat / 2 ∧
      (x ≠ vf → t.v[vf].toNat = s.v[x].toNat % 2) ∧ SameExcept [x, vf] [] [] s t) ∧
    (∃ t, exec (.shl x y) s = .next t ∧ t.v[x].toNat = 2 * s.v[x].toNat % 256 ∧
      (x ≠ vf → t.v[vf].toNat = s.v[x].toNat / 128) ∧ SameExcept [x, vf] [] [] s t) ∧
    (∀ y' : Reg, exec (.shr x y) s = exec (.shr x y') s ∧ exec (.shl x y) s = exec (.shl x y') s)

/-- R140: result and flag together give back the exact sum and the exact difference, for `x ≠ 15`. With `y = 15` the
operand is the old VF: for the difference that form rests on the spec's decision D3 (R141, U3, log entry 7). -/
def Obligations.FlagCompletesTheExactResult : Prop :=
  ∀ (x y : Reg) (s : State), x ≠ vf →
    (∃ t, exec (.addReg x y) s = .next t ∧
      s.v[x].toNat + s.v[y].toNat = t.v[x].toNat + 256 * t.v[vf].toNat) ∧
    (∃ t, exec (.subReg x y) s = .next t ∧
      (s.v[x].toNat : Int) - s.v[y].toNat = t.v[x].toNat - 256 * (1 - t.v[vf].toNat))

/-! ## Display (43_display.md) -/

/-- R150: every cell 0 and the clear signal raised; `redraw` and VF are not touched. -/
def Obligations.ClsBlanksAndRaisesClear : Prop :=
  DecodesAs 0xFFFF 0x00E0 (fun _ => .cls) ∧
  ∀ s : State, ∃ t, exec .cls s = .next t ∧ (∀ p : Cell, t.fb.pixel p = false) ∧ t.clear = true ∧
    SameExcept [] [] [.screen, .clear] s t

/-- R27, R151, R199: XorPixel inverts its cell and no other, and tells whether it was on; the cell of row `r` and column
`c` is the byte `r × 64 + c` of the 2048 that the host reads. -/
def Obligations.XorPixelInvertsOneCell : Prop :=
  (∀ (fb : Screen) (p q : Cell),
    (fb.xorPixel p).1.pixel q = (if q = p then !fb.pixel q else fb.pixel q) ∧ (fb.xorPixel p).2 = fb.pixel p) ∧
  (∀ s : State, s.pixelRead.length = 2048 ∧
    ∀ (r : Fin 32) (c : Fin 64), s.pixelRead[r.val * 64 + c.val]? = some (if s.fb.pixel (r, c) then 1#8 else 0#8))

/-- R152, R153: a draw whose rows lie in memory inverts exactly the covered cells, each wrapped on its own; VF is 1 if a
covered cell was on, else 0; `redraw` is raised even if no pixel changed. The origin is read before VF is written (the
spec's decision D3 for `x = 15` and `y = 15`). -/
def Obligations.DrwInvertsTheCoveredCells : Prop :=
  DecodesAs 0xF000 0xD000 (fun w => .drw (fieldX w) (fieldY w) (fieldN w)) ∧
  ∀ (x y : Reg) (n : Nibble) (s : State), (n.toNat = 0 ∨ s.i.toNat + n.toNat - 1 ≤ 4095) →
    ∃ t, exec (.drw x y n) s = .next t ∧
      (∀ p : Cell, Covers s (s.v[y].toNat % 32) (s.v[x].toNat % 64) n.toNat p → t.fb.pixel p = !s.fb.pixel p) ∧
      (∀ p : Cell, ¬ Covers s (s.v[y].toNat % 32) (s.v[x].toNat % 64) n.toNat p → t.fb.pixel p = s.fb.pixel p) ∧
      ((∃ p, Covers s (s.v[y].toNat % 32) (s.v[x].toNat % 64) n.toNat p ∧ s.fb.pixel p = true) → t.v[vf] = 1#8) ∧
      ((¬ ∃ p, Covers s (s.v[y].toNat % 32) (s.v[x].toNat % 64) n.toNat p ∧ s.fb.pixel p = true) → t.v[vf] = 0#8) ∧
      t.redraw = true ∧ SameExcept [vf] [] [.screen, .redraw] s t

/-- R154: a second draw of the same bytes at the same origin, with the pixel buffer not changed in between, restores the
buffer of before the first; VF is then 1 exactly when some set bit covers a cell that was off before the first. Only the sprite's own bytes need be
the same at the second draw. The forms with register 15 rest on the spec's decision D3 (log entry 7): an origin is the one
before VF is written. -/
def Obligations.DoubleDrawRestoresTheScreen : Prop :=
  ∀ (x y x' y' : Reg) (n : Nibble) (s : State), (n.toNat = 0 ∨ s.i.toNat + n.toNat - 1 ≤ 4095) →
    ∃ t, exec (.drw x y n) s = .next t ∧
      ∀ t' : State, t'.fb = t.fb → t'.i = s.i →
        (∀ r, r < n.toNat → t'.mem.byteAt (s.i.toNat + r) = s.mem.byteAt (s.i.toNat + r)) →
        t'.v[x'].toNat % 64 = s.v[x].toNat % 64 → t'.v[y'].toNat % 32 = s.v[y].toNat % 32 →
        ∃ u, exec (.drw x' y' n) t' = .next u ∧ u.fb = s.fb ∧
          (u.v[vf] = 1#8 ↔
            ∃ p, Covers s (s.v[y].toNat % 32) (s.v[x].toNat % 64) n.toNat p ∧ s.fb.pixel p = false)

/-- R65, R186: "Range checks are made for the whole access of an instruction before any of its effects": out of range,
the draw, the BCD store and the block transfers only report (the spec's decision D5). -/
def Obligations.OutOfRangeAccessOnlyReports : Prop :=
  ∀ (s : State) (x y : Reg) (n : Nibble) (i : Instr),
    (i = .drw x y n ∧ 1 ≤ n.toNat ∧ 4095 < s.i.toNat + n.toNat - 1) ∨ (i = .ldB x ∧ 4095 < s.i.toNat + 2) ∨
    (i = .storeRegs x ∧ 4095 < s.i.toNat + x.val) ∨ (i = .loadRegs x ∧ 4095 < s.i.toNat + x.val) →
    ∃ t, exec i s = .next t ∧ Reported (.addressOutOfRange (encode i) s.pc) s t ∧ SameExcept [] [] [.reports] s t

/-! ## The misc/memory group (44_misc_memory.md) -/

/-- R160, R161. -/
def Obligations.DelayTimerIsReadAndWritten : Prop :=
  DecodesAs 0xF0FF 0xF007 (fun w => .ldVxDT (fieldX w)) ∧
  DecodesAs 0xF0FF 0xF015 (fun w => .ldDTVx (fieldX w)) ∧
  ∀ (x : Reg) (s : State),
    (∃ t, exec (.ldVxDT x) s = .next t ∧ t.v[x] = s.dt ∧ SameExcept [x] [] [] s t) ∧
    (∃ t, exec (.ldDTVx x) s = .next t ∧ t.dt = s.v[x] ∧ SameExcept [] [] [.timer] s t)

/-- R162: no wrap at 12 bits, a wrap at 16 (the spec's decision D7), VF not written. -/
def Obligations.AddIWrapsAtSixteenBits : Prop :=
  DecodesAs 0xF0FF 0xF01E (fun w => .addI (fieldX w)) ∧
  ∀ (x : Reg) (s : State), ∃ t, exec (.addI x) s = .next t ∧ t.i.toNat = (s.i.toNat + s.v[x].toNat) % 65536 ∧
    SameExcept [] [] [.index] s t

/-- R163: five times the full 8-bit value, exact. -/
def Obligations.LdFMultipliesByFive : Prop :=
  DecodesAs 0xF0FF 0xF029 (fun w => .ldF (fieldX w)) ∧
  ∀ (x : Reg) (s : State), ∃ t, exec (.ldF x) s = .next t ∧ t.i.toNat = 5 * s.v[x].toNat ∧
    SameExcept [] [] [.index] s t

/-- R164: "`v = 100h + 10t + o`", each digit a byte 0 to 9. -/
def Obligations.BcdSplitsIntoDigits : Prop :=
  ∀ b : Byte, ∃ h t o : Byte, bcd b = [h, t, o] ∧ h.toNat = b.toNat / 100 ∧ t.toNat = b.toNat / 10 % 10 ∧
    o.toNat = b.toNat % 10 ∧ b.toNat = 100 * h.toNat + 10 * t.toNat + o.toNat ∧ h.toNat ≤ 2 ∧ t.toNat ≤ 9 ∧ o.toNat ≤ 9

/-- R165, in range: the three digits at `I`, `I + 1`, `I + 2`; every other byte, `I` and `V[x]` are unchanged. -/
def Obligations.LdBStoresThreeDigits : Prop :=
  DecodesAs 0xF0FF 0xF033 (fun w => .ldB (fieldX w)) ∧
  ∀ (x : Reg) (s : State), s.i.toNat + 2 ≤ 4095 →
    ∃ t, exec (.ldB x) s = .next t ∧ (t.mem.byteAt (s.indexed 0)).toNat = s.v[x].toNat / 100 ∧
      (t.mem.byteAt (s.indexed 1)).toNat = s.v[x].toNat / 10 % 10 ∧
      (t.mem.byteAt (s.indexed 2)).toNat = s.v[x].toNat % 10 ∧ SameExcept [] (s.indexedRange 3) [] s t

/-- R166, in range: `V[0]` to `V[x]` at `I` to `I + x`; every other byte, `I` and the registers are unchanged. -/
def Obligations.StoreRegsStoresTheBlock : Prop :=
  DecodesAs 0xF0FF 0xF055 (fun w => .storeRegs (fieldX w)) ∧
  ∀ (x : Reg) (s : State), s.i.toNat + x.val ≤ 4095 →
    ∃ t, exec (.storeRegs x) s = .next t ∧ (∀ k : Reg, k ≤ x → t.mem.byteAt (s.indexed k.val) = s.v[k]) ∧
      SameExcept [] (s.indexedRange (blockLength x)) [] s t

/-- R167, in range: `mem[I]` to `mem[I + x]` in `V[0]` to `V[x]`; registers above `x`, `I` and memory are unchanged. -/
def Obligations.LoadRegsLoadsTheBlock : Prop :=
  DecodesAs 0xF0FF 0xF065 (fun w => .loadRegs (fieldX w)) ∧
  ∀ (x : Reg) (s : State), s.i.toNat + x.val ≤ 4095 →
    ∃ t, exec (.loadRegs x) s = .next t ∧ (∀ k : Reg, k ≤ x → t.v[k] = s.mem.byteAt (s.indexed k.val)) ∧
      (∀ k : Reg, x < k → t.v[k] = s.v[k]) ∧ SameExcept ((List.finRange 16).take (blockLength x)) [] [] s t

/-- R167: "`Fx55` followed by `Fx65` with the same `x` and `I` restores `V[0..x]` exactly", whatever has happened to the
registers in between. -/
def Obligations.StoreThenLoadRestoresTheBlock : Prop :=
  ∀ (x : Reg) (s : State), s.i.toNat + x.val ≤ 4095 →
    ∃ t, exec (.storeRegs x) s = .next t ∧
      ∀ t' : State, t'.mem = t.mem → t'.i = s.i →
        ∃ u, exec (.loadRegs x) t' = .next u ∧ ∀ k : Reg, u.v[k] = if k ≤ x then s.v[k] else t'.v[k]

/-- R62, R54: "A store is seen by every later instruction fetch with no intervening action", for both instructions that
store. After `Fx55`, and after `Fx33` with the digits of R164, in range: a fetch of two stored bytes reads both, one at
the last stored byte reads it as its high byte and the old byte after it, and one that ends in the first stored byte reads
it as its low byte. -/
def Obligations.StoredBytesAreFetched : Prop :=
  (∀ (x : Reg) (s : State), s.i.toNat + x.val ≤ 4095 →
    ∃ t, exec (.storeRegs x) s = .next t ∧
      ∀ u : State, u.mem = t.mem →
        (u.pc.toNat + 1 = s.indexed 0 → u.fetch = some (s.mem.byteAt u.pc.toNat ++ s.v[v0])) ∧
        (∀ k j : Reg, j ≤ x → j.val = k.val + 1 → u.pc.toNat = s.indexed k.val →
          u.fetch = some (s.v[k] ++ s.v[j])) ∧
        (u.pc.toNat = s.indexed x.val → u.pc.toNat ≤ 4094 →
          u.fetch = some (s.v[x] ++ s.mem.byteAt (u.pc.toNat + 1)))) ∧
  (∀ (x : Reg) (s : State), s.i.toNat + 2 ≤ 4095 →
    ∃ (t : State) (h d o : Byte), exec (.ldB x) s = .next t ∧
      h.toNat = s.v[x].toNat / 100 ∧ d.toNat = s.v[x].toNat / 10 % 10 ∧ o.toNat = s.v[x].toNat % 10 ∧
      ∀ u : State, u.mem = t.mem →
        (u.pc.toNat + 1 = s.indexed 0 → u.fetch = some (s.mem.byteAt u.pc.toNat ++ h)) ∧
        (u.pc.toNat = s.indexed 0 → u.fetch = some (h ++ d)) ∧
        (u.pc.toNat = s.indexed 1 → u.fetch = some (d ++ o)) ∧
        (u.pc.toNat = s.indexed 2 → u.pc.toNat ≤ 4094 →
          u.fetch = some (o ++ s.mem.byteAt (u.pc.toNat + 1))))

/-! ## The whole machine -/

/-- R10 and the table at the head of 10_state.md: whatever an instruction does, it writes only the registers, bytes and
pieces of state the rules name for it; no instruction writes the key state. -/
def Obligations.EveryInstructionKeepsItsFrame : Prop :=
  ∀ (i : Instr) (s t : State), exec i s = .next t →
    SameExcept (writtenRegs i) (storedAddrs s i) (writtenParts i) s t

/-- R180, R193, R201: "the interpreter must remain steppable after any of the above": from every state with a legal
stack pointer a step answers a next state, with a legal stack pointer; it neither stops nor is refused. -/
def Obligations.EveryStepAnswersANextState : Prop :=
  ∀ s : State, StackDepthLegal s → ∃ t, step s = .next t ∧ StackDepthLegal t

/-- R181, R189: a step reports no condition and adds nothing to the record, or it reports one and adds that one (the
record is the model's choice, log entry 1). -/
def Obligations.AtMostOneReportPerStep : Prop :=
  ∀ s t : State, step s = .next t →
    (t.cond = none ∧ t.condLog = s.condLog) ∨ ∃ c, Reported c s t

/-- R33: every piece of state at its reset value. -/
def Obligations.ResetLeavesEverythingZero : Prop :=
  (∀ k : Reg, State.reset.v[k] = 0#8) ∧ State.reset.i = 0x0000#16 ∧ State.reset.pc = 0x0200#16 ∧
  State.reset.sp.toNat = 0 ∧ (∀ k : Fin 16, State.reset.stack[k] = 0x0000#16) ∧
  (∀ a : Nat, State.reset.mem.byteAt a = 0x00#8) ∧ (∀ p : Cell, State.reset.fb.pixel p = false) ∧
  State.reset.redraw = false ∧ State.reset.clear = false ∧ (∀ k : Fin 16, State.reset.key[k] = false) ∧
  State.reset.dt = 0x00#8

/-- R34: the invariant holds at reset. -/
def Obligations.ResetMeetsTheInvariant : Prop := Inv State.reset

/-- R34: every step keeps the invariant, from every state that meets it. -/
def Obligations.StepKeepsTheInvariant : Prop :=
  ∀ s t : State, Inv s → step s = .next t → Inv t

/-- R34, R195: every host operation, and a step that is given a random byte, keeps the invariant. -/
def Obligations.HostOperationsKeepTheInvariant : Prop :=
  (∀ (op : HostOp) (s : State), Inv s → Inv (op.apply s)) ∧
  (∀ (r : Byte) (s t : State), Inv s → stepWith r s = .next t → Inv t)

/-- R34: "For every state reachable from reset by steps and host operations". -/
def Obligations.ReachableStatesMeetTheInvariant : Prop := ∀ s : State, Reachable s → Inv s

/-- R104, R219: at the end of a run (the spec's decision D24) a step changes no state; the condition output is empty. -/
def Obligations.SelfJumpChangesNoState : Prop :=
  ∀ s : State, AtEndOfRun s → step s = .next { s with cond := none }

/-- R181: the code of each condition on the 3-bit port, 0 when there is none, and the code of what Load returns (the
numbers are the spec's decision D14; that a successful Load has the code 0 is the model's choice, log entry 24). -/
def Obligations.ConditionCodesFollowTheTable : Prop :=
  (∀ s : State, s.cond = none → s.condCode = 0#3) ∧
  (∀ (s : State) (c : Condition), s.cond = some c → s.condCode = c.code) ∧
  (∀ ir pc : Word,
    (Condition.unknownOpcode ir pc).code = 1#3 ∧ (Condition.invalidOpcodeFormat ir pc).code = 2#3 ∧
    (Condition.stackOverflow ir pc).code = 3#3 ∧ (Condition.stackUnderflow ir pc).code = 4#3 ∧
    (Condition.fetchOutOfRange pc).code = 5#3 ∧ (Condition.addressOutOfRange ir pc).code = 5#3) ∧
  (∀ s : State, (LoadOutcome.ok s).code = 0#3) ∧ (∀ n : Nat, (LoadOutcome.imageTooLarge n).code = 6#3)

/-! ## The host (60_exceptions.md, 70_reset_and_hazards.md) -/

/-- R196, R198. -/
def Obligations.KeyWriteAndSignalReadClear : Prop :=
  (∀ (k : Fin 16) (b : Bool) (s : State), (s.keyWrite k b).key[k] = b ∧
    (∀ j : Fin 16, j ≠ k → (s.keyWrite k b).key[j] = s.key[j]) ∧ { s.keyWrite k b with key := s.key } = s) ∧
  (∀ s : State, s.signalReadClear.1 = (s.redraw, s.clear) ∧ s.signalReadClear.2.redraw = false ∧
    s.signalReadClear.2.clear = false ∧ SameExcept [] [] [.redraw, .clear] s s.signalReadClear.2)

/-- R197: one down, and at 0 it stays (the spec's decision D16, from general knowledge); so `k` ticks take `k` off, not
below 0. -/
def Obligations.TimerTicksDownToZero : Prop :=
  (∀ s : State, SameExcept [] [] [.timer] s s.timerTick) ∧
  ∀ (k : Nat) (s : State), (State.timerTick^[k] s).dt.toNat = s.dt.toNat - k

/-- R211: Load copies the image to 0x200 upward and changes nothing else, or, when the image is too long, changes
nothing. -/
def Obligations.LoadCopiesTheImageOrNothing : Prop :=
  ∀ (image : List Byte) (s : State),
    (3584 < image.length → s.load image = .imageTooLarge image.length) ∧
    (image.length ≤ 3584 → ∃ t, s.load image = .ok t ∧
      (∀ (k : Nat) (h : k < image.length), t.mem.byteAt (0x200 + k) = image[k]) ∧
      SameExcept [] ((List.range image.length).map (0x200 + ·)) [] s t)

/-- R210: Reset, from any state (the spec's decision D25), gives the state after power-on; the random source is not
reset (the model's choice, log entry 2: R210 leaves it unspecified). -/
def Obligations.HostResetGivesTheResetState : Prop :=
  ∀ s : State, { s.hostReset with rndQueue := [], rndDraws := 0 } = State.reset ∧
    s.hostReset.rndQueue = s.rndQueue ∧ s.hostReset.rndDraws = s.rndDraws
end

