-- ==== Sys2Proof/Laws/Decode.lean ====
section
/-! SUPPORT. The fields of an instruction word as numbers, the formats as numbers, each format's fields, and what a mask
says about a field. With these a decoding or an encoding is followed without unfolding a bit vector. -/

namespace Sys2Proof

/-! ## Fields as numbers (R71) -/

theorem fieldOp_toNat (w : Word) : (fieldOp w).toNat = w.toNat / 4096 := by
  have := w.isLt
  simp [fieldOp, Nat.shiftRight_eq_div_pow]
  omega

theorem fieldX_val (w : Word) : (fieldX w).val = w.toNat / 256 % 16 := by
  simp [fieldX, Nat.shiftRight_eq_div_pow]

theorem fieldY_val (w : Word) : (fieldY w).val = w.toNat / 16 % 16 := by
  simp [fieldY, Nat.shiftRight_eq_div_pow]

theorem fieldN_toNat (w : Word) : (fieldN w).toNat = w.toNat % 16 := by
  simp [fieldN]

theorem fieldKK_toNat (w : Word) : (fieldKK w).toNat = w.toNat % 256 := by
  simp [fieldKK]

theorem fieldNNN_toNat (w : Word) : (fieldNNN w).toNat = w.toNat % 4096 := by
  simp [fieldNNN]

theorem regBits_toNat (r : Reg) : (regBits r).toNat = r.val := rfl

/-! ## Formats as numbers (R72) -/

theorem formatA_toNat (op : Nibble) (nnn : Addr) : (formatA op nnn).toNat = op.toNat * 4096 + nnn.toNat := by
  have := nnn.isLt
  simp only [formatA, BitVec.toNat_append]
  rw [← Nat.shiftLeft_add_eq_or_of_lt (by omega), Nat.shiftLeft_eq]

theorem formatK_toNat (op : Nibble) (x : Reg) (kk : Byte) :
    (formatK op x kk).toNat = op.toNat * 4096 + x.val * 256 + kk.toNat := by
  have := x.isLt
  have := kk.isLt
  simp only [formatK, BitVec.toNat_append, regBits_toNat]
  rw [← Nat.shiftLeft_add_eq_or_of_lt (by omega), ← Nat.shiftLeft_add_eq_or_of_lt (by omega)]
  simp only [Nat.shiftLeft_eq]
  omega

theorem formatT_eq (op : Nibble) (x : Reg) (tag : Byte) : formatT op x tag = formatK op x tag := rfl

theorem formatR_toNat (op : Nibble) (x y : Reg) (n : Nibble) :
    (formatR op x y n).toNat = op.toNat * 4096 + x.val * 256 + y.val * 16 + n.toNat := by
  have := x.isLt
  have := y.isLt
  have := n.isLt
  simp only [formatR, BitVec.toNat_append, regBits_toNat]
  rw [← Nat.shiftLeft_add_eq_or_of_lt (by omega), ← Nat.shiftLeft_add_eq_or_of_lt (by omega),
    ← Nat.shiftLeft_add_eq_or_of_lt (by omega)]
  simp only [Nat.shiftLeft_eq]
  omega

/-! ## The fields of each format -/

@[simp] theorem fieldOp_formatA (op : Nibble) (nnn : Addr) : fieldOp (formatA op nnn) = op := by
  have := nnn.isLt
  apply BitVec.eq_of_toNat_eq
  rw [fieldOp_toNat, formatA_toNat]
  omega

@[simp] theorem fieldNNN_formatA (op : Nibble) (nnn : Addr) : fieldNNN (formatA op nnn) = nnn := by
  have := nnn.isLt
  apply BitVec.eq_of_toNat_eq
  rw [fieldNNN_toNat, formatA_toNat]
  omega

@[simp] theorem fieldOp_formatK (op : Nibble) (x : Reg) (kk : Byte) : fieldOp (formatK op x kk) = op := by
  have := x.isLt
  have := kk.isLt
  apply BitVec.eq_of_toNat_eq
  rw [fieldOp_toNat, formatK_toNat]
  omega

@[simp] theorem fieldX_formatK (op : Nibble) (x : Reg) (kk : Byte) : fieldX (formatK op x kk) = x := by
  have := kk.isLt
  apply Fin.ext
  rw [fieldX_val, formatK_toNat]
  omega

@[simp] theorem fieldKK_formatK (op : Nibble) (x : Reg) (kk : Byte) : fieldKK (formatK op x kk) = kk := by
  have := kk.isLt
  apply BitVec.eq_of_toNat_eq
  rw [fieldKK_toNat, formatK_toNat]
  omega

@[simp] theorem fieldOp_formatR (op : Nibble) (x y : Reg) (n : Nibble) : fieldOp (formatR op x y n) = op := by
  have := n.isLt
  apply BitVec.eq_of_toNat_eq
  rw [fieldOp_toNat, formatR_toNat]
  omega

@[simp] theorem fieldX_formatR (op : Nibble) (x y : Reg) (n : Nibble) : fieldX (formatR op x y n) = x := by
  have := n.isLt
  apply Fin.ext
  rw [fieldX_val, formatR_toNat]
  omega

@[simp] theorem fieldY_formatR (op : Nibble) (x y : Reg) (n : Nibble) : fieldY (formatR op x y n) = y := by
  have := n.isLt
  apply Fin.ext
  rw [fieldY_val, formatR_toNat]
  omega

@[simp] theorem fieldN_formatR (op : Nibble) (x y : Reg) (n : Nibble) : fieldN (formatR op x y n) = n := by
  have := n.isLt
  apply BitVec.eq_of_toNat_eq
  rw [fieldN_toNat, formatR_toNat]
  omega

/-! ## A word put together from its own fields -/

theorem formatA_fields (w : Word) : formatA (fieldOp w) (fieldNNN w) = w := by
  apply BitVec.eq_of_toNat_eq
  rw [formatA_toNat, fieldOp_toNat, fieldNNN_toNat]
  omega

theorem formatK_fields (w : Word) : formatK (fieldOp w) (fieldX w) (fieldKK w) = w := by
  apply BitVec.eq_of_toNat_eq
  rw [formatK_toNat, fieldOp_toNat, fieldX_val, fieldKK_toNat]
  omega

theorem formatR_fields (w : Word) : formatR (fieldOp w) (fieldX w) (fieldY w) (fieldN w) = w := by
  apply BitVec.eq_of_toNat_eq
  rw [formatR_toNat, fieldOp_toNat, fieldX_val, fieldY_val, fieldN_toNat]
  omega

/-! ## Masks -/

/-- A mask that is all ones over a slice leaves the slice as it is. -/
theorem slice_of_mask (w mask : Word) (lo len : Nat) (ones : mask.extractLsb' lo len = BitVec.allOnes len) :
    (w &&& mask).extractLsb' lo len = w.extractLsb' lo len := by
  rw [BitVec.extractLsb'_and, ones, BitVec.and_allOnes]

/-- The family of a word that selects a row whose mask covers the family bits (R74). -/
theorem fieldOp_of_mask {w mask pattern : Word} (sel : w &&& mask = pattern)
    (ones : mask.extractLsb' 12 4 = BitVec.allOnes 4) : fieldOp w = fieldOp pattern := by
  rw [fieldOp, fieldOp, ← sel, slice_of_mask w mask 12 4 ones]

/-- The low nibble of a word that selects a row whose mask covers it. -/
theorem fieldN_of_mask {w mask pattern : Word} (sel : w &&& mask = pattern)
    (ones : mask.extractLsb' 0 4 = BitVec.allOnes 4) : fieldN w = fieldN pattern := by
  rw [fieldN, fieldN, ← sel, slice_of_mask w mask 0 4 ones]

/-- The tag byte of a word that selects a row whose mask covers it. -/
theorem fieldKK_of_mask {w mask pattern : Word} (sel : w &&& mask = pattern)
    (ones : mask.extractLsb' 0 8 = BitVec.allOnes 8) : fieldKK w = fieldKK pattern := by
  rw [fieldKK, fieldKK, ← sel, slice_of_mask w mask 0 8 ones]

theorem formatA_family (op : Nibble) (nnn : Addr) : formatA op nnn &&& 0xF000#16 = formatA op 0 := by
  have e : (0xF000#16 : Word) = (BitVec.allOnes 4 ++ 0#12 : BitVec (4 + 12)) := by decide
  rw [formatA, formatA, e, BitVec.and_append, BitVec.and_allOnes, BitVec.and_zero]
  rfl

theorem formatK_family (op : Nibble) (x : Reg) (kk : Byte) : formatK op x kk &&& 0xF000#16 = formatK op 0 0 := by
  have e : (0xF000#16 : Word) = (BitVec.allOnes 4 ++ 0#4 ++ 0#8 : BitVec (4 + 4 + 8)) := by decide
  rw [formatK, formatK, e, BitVec.and_append, BitVec.and_append, BitVec.and_allOnes, BitVec.and_zero, BitVec.and_zero]
  rfl

theorem formatT_tagged (op : Nibble) (x : Reg) (tag : Byte) : formatT op x tag &&& 0xF0FF#16 = formatT op 0 tag := by
  have e : (0xF0FF#16 : Word) = (BitVec.allOnes 4 ++ 0#4 ++ BitVec.allOnes 8 : BitVec (4 + 4 + 8)) := by decide
  rw [formatT, formatT, e, BitVec.and_append, BitVec.and_append, BitVec.and_allOnes, BitVec.and_zero,
    BitVec.and_allOnes]
  rfl

theorem formatR_selected (op : Nibble) (x y : Reg) (n : Nibble) :
    formatR op x y n &&& 0xF00F#16 = formatR op 0 0 n := by
  have e : (0xF00F#16 : Word) = (BitVec.allOnes 4 ++ 0#4 ++ 0#4 ++ BitVec.allOnes 4 : BitVec (4 + 4 + 4 + 4)) := by
    decide
  rw [formatR, formatR, e, BitVec.and_append, BitVec.and_append, BitVec.and_append, BitVec.and_allOnes,
    BitVec.and_zero, BitVec.and_zero, BitVec.and_allOnes]
  rfl

theorem formatR_family (op : Nibble) (x y : Reg) (n : Nibble) :
    formatR op x y n &&& 0xF000#16 = formatR op 0 0 0 := by
  have e : (0xF000#16 : Word) = (BitVec.allOnes 4 ++ 0#4 ++ 0#4 ++ 0#4 : BitVec (4 + 4 + 4 + 4)) := by decide
  rw [formatR, formatR, e, BitVec.and_append, BitVec.and_append, BitVec.and_append, BitVec.and_allOnes,
    BitVec.and_zero, BitVec.and_zero, BitVec.and_zero]
  rfl

/-! ## Decoding by family (R73) -/

section
variable {w : Word}

theorem decode_family0 (h : fieldOp w = 0x0#4) : decode w = decodeSystem w := by simp [decode, h]

theorem decode_family1 (h : fieldOp w = 0x1#4) : decode w = .instr (.jp (fieldNNN w)) := by
  simp [decode, h]

theorem decode_family2 (h : fieldOp w = 0x2#4) : decode w = .instr (.call (fieldNNN w)) := by
  simp [decode, h]

theorem decode_family3 (h : fieldOp w = 0x3#4) : decode w = .instr (.seImm (fieldX w) (fieldKK w)) := by
  simp [decode, h]

theorem decode_family4 (h : fieldOp w = 0x4#4) : decode w = .instr (.sneImm (fieldX w) (fieldKK w)) := by
  simp [decode, h]

theorem decode_family5 (h : fieldOp w = 0x5#4) : decode w = decodeZeroNibble (fieldN w) (.seReg (fieldX w) (fieldY w)) := by
  simp [decode, h]

theorem decode_family6 (h : fieldOp w = 0x6#4) : decode w = .instr (.ldImm (fieldX w) (fieldKK w)) := by
  simp [decode, h]

theorem decode_family7 (h : fieldOp w = 0x7#4) : decode w = .instr (.addImm (fieldX w) (fieldKK w)) := by
  simp [decode, h]

theorem decode_family8 (h : fieldOp w = 0x8#4) : decode w = decodeAlu (fieldX w) (fieldY w) (fieldN w) := by
  simp [decode, h]

theorem decode_family9 (h : fieldOp w = 0x9#4) : decode w = decodeZeroNibble (fieldN w) (.sneReg (fieldX w) (fieldY w)) := by
  simp [decode, h]

theorem decode_familyA (h : fieldOp w = 0xA#4) : decode w = .instr (.ldI (fieldNNN w)) := by
  simp [decode, h]

theorem decode_familyB (h : fieldOp w = 0xB#4) : decode w = .instr (.jpV0 (fieldNNN w)) := by
  simp [decode, h]

theorem decode_familyC (h : fieldOp w = 0xC#4) : decode w = .instr (.rnd (fieldX w) (fieldKK w)) := by
  simp [decode, h]

theorem decode_familyD (h : fieldOp w = 0xD#4) : decode w = .instr (.drw (fieldX w) (fieldY w) (fieldN w)) := by
  simp [decode, h]

theorem decode_familyE (h : fieldOp w = 0xE#4) : decode w = decodeKey (fieldX w) (fieldKK w) := by
  simp [decode, h]

theorem decode_familyF (h : fieldOp w = 0xF#4) : decode w = decodeMisc (fieldX w) (fieldKK w) := by
  simp [decode, h]

/-- The sixteen families. -/
theorem fieldOp_cases (w : Word) :
    fieldOp w = 0x0#4 ∨ fieldOp w = 0x1#4 ∨ fieldOp w = 0x2#4 ∨ fieldOp w = 0x3#4 ∨ fieldOp w = 0x4#4 ∨
    fieldOp w = 0x5#4 ∨ fieldOp w = 0x6#4 ∨ fieldOp w = 0x7#4 ∨ fieldOp w = 0x8#4 ∨ fieldOp w = 0x9#4 ∨
    fieldOp w = 0xA#4 ∨ fieldOp w = 0xB#4 ∨ fieldOp w = 0xC#4 ∨ fieldOp w = 0xD#4 ∨ fieldOp w = 0xE#4 ∨
    fieldOp w = 0xF#4 := by
  generalize fieldOp w = op
  revert op
  decide

end

/-- The two bytes of a word make the word again (R54, R86). -/
@[simp] theorem wordOfBytes_bytes (w : Word) : wordOfBytes (highByte w) (lowByte w) = w := by
  apply BitVec.eq_of_toNat_eq
  simp only [wordOfBytes, highByte, lowByte, BitVec.toNat_append]
  rw [← Nat.shiftLeft_add_eq_or_of_lt (by simp; omega)]
  have := w.isLt
  simp [Nat.shiftLeft_eq, Nat.shiftRight_eq_div_pow]
  omega

end Sys2Proof
end

