-- ==== Sys2Proof/Laws/Flags.lean ====
section
/-! SUPPORT. The alu and the flags over the natural numbers (42_alu.md R130, R140). -/

namespace Sys2Proof.Machine

@[simp] theorem flagByte_toNat (f : Bool) : (flagByte f).toNat = if f then 1 else 0 := by
  cases f <;> rfl

theorem flagByte_eq_one (f : Bool) : flagByte f = 1#8 ↔ f = true := by
  cases f <;> decide

@[simp] theorem carryOf_eq (a b : Byte) : carryOf a b = decide (255 < a.toNat + b.toNat) := rfl

@[simp] theorem noBorrow_eq (a b : Byte) : noBorrow a b = decide (b.toNat ≤ a.toNat) := rfl

/-- Bit 0 of a byte is its remainder by 2. -/
theorem shiftedOutRight_eq (a : Byte) : shiftedOutRight a = decide (a.toNat % 2 = 1) := by
  simp [shiftedOutRight, BitVec.getLsbD, Nat.testBit_zero]

/-- Bit 7 of a byte says whether it is at least 128. -/
theorem shiftedOutLeft_eq (a : Byte) : shiftedOutLeft a = decide (128 ≤ a.toNat) := by
  have := a.isLt
  simp only [shiftedOutLeft, BitVec.getLsbD, Nat.testBit_eq_decide_div_mod_eq, decide_eq_decide]
  omega

/-- The result of each operation as a number (R130). -/
theorem alu_result_toNat (op : AluOp) (a b : Byte) :
    (alu op a b).1.toNat =
      match op with
      | .mov  => b.toNat
      | .or   => a.toNat ||| b.toNat
      | .and  => a.toNat &&& b.toNat
      | .xor  => a.toNat ^^^ b.toNat
      | .add  => (a.toNat + b.toNat) % 256
      | .sub  => (a.toNat + (256 - b.toNat)) % 256
      | .shr  => a.toNat / 2
      | .subn => (b.toNat + (256 - a.toNat)) % 256
      | .shl  => 2 * a.toNat % 256 := by
  cases op <;>
    simp [alu, BitVec.toNat_sub, Nat.shiftRight_eq_div_pow, Nat.shiftLeft_eq, Nat.add_comm, Nat.mul_comm]

end Sys2Proof.Machine
end

