-- ==== Sys2Proof/Laws/Memory.lean ====
section
/-! SUPPORT. The laws of the memory array: read after write, a write changes one byte, every operation keeps the canonical
form, and equal reads mean equal memories. -/

namespace Sys2Proof.Machine

/-! ## What a read gives after each operation -/

@[simp] theorem Memory.byteAt_nil (a : Nat) : Memory.byteAt [] a = Memory.unlisted := rfl

theorem Memory.byteAt_cons (k : Nat) (c : Byte) (m : Memory) (a : Nat) :
    Memory.byteAt ((k, c) :: m) a = if k = a then c else Memory.byteAt m a := rfl

theorem Memory.byteAt_without (m : Memory) (a a' : Nat) :
    (m.without a).byteAt a' = if a' = a then Memory.unlisted else m.byteAt a' := by
  induction m with
  | nil => simp [Memory.without]
  | cons cell m ih =>
    obtain ⟨k, c⟩ := cell
    simp only [Memory.without] at ih
    by_cases hk : k = a
    · simp only [Memory.without, List.filter_cons, hk, bne_self_eq_false, Bool.false_eq_true, if_false, ih,
        Memory.byteAt_cons]
      by_cases h : a' = a
      · simp [h]
      · rw [if_neg h, if_neg h, if_neg (fun e => h e.symm)]
    · simp only [Memory.without, List.filter_cons, bne_iff_ne, ne_eq, hk, not_false_eq_true, if_true,
        Memory.byteAt_cons, ih]
      by_cases h : k = a'
      · have : a' ≠ a := h ▸ hk
        simp [h, this]
      · simp [h]

theorem Memory.byteAt_place (m : Memory) (a : Nat) (b : Byte) (a' : Nat) (absent : m.byteAt a = Memory.unlisted)
    (distinct : ∀ cell ∈ m, cell.1 ≠ a) :
    (m.place a b).byteAt a' = if a' = a then b else m.byteAt a' := by
  induction m with
  | nil => simp [Memory.place, Memory.byteAt_cons, eq_comm]
  | cons cell m ih =>
    obtain ⟨k, c⟩ := cell
    have hk : k ≠ a := distinct (k, c) (by simp)
    have rest : ∀ cell ∈ m, cell.1 ≠ a := fun cell h => distinct cell (by simp [h])
    rw [Memory.byteAt_cons, if_neg hk] at absent
    unfold Memory.place
    split
    · simp only [Memory.byteAt_cons, ih absent rest]
      by_cases h : k = a'
      · have : a' ≠ a := h ▸ hk
        simp [h, this]
      · simp [h]
    · simp only [Memory.byteAt_cons]
      by_cases h : a' = a
      · simp [h]
      · have : ¬ a = a' := fun e => h e.symm
        simp [h, this]

/-- Read after write: the written address reads as the written byte, every other address as before (R53). -/
theorem Memory.byteAt_put (m : Memory) (a : Nat) (b : Byte) (a' : Nat) :
    (m.put a b).byteAt a' = if a' = a then b else m.byteAt a' := by
  unfold Memory.put
  split
  · next h => rw [Memory.byteAt_without, h]
  · rw [Memory.byteAt_place]
    · by_cases h : a' = a
      · simp [h]
      · simp [h, Memory.byteAt_without]
    · simp [Memory.byteAt_without]
    · intro cell h
      simpa using (List.mem_filter.mp h).2

/-- A store of several bytes: address `a + k` reads as byte `k`, every address outside them as before. -/
theorem Memory.byteAt_putAll (bytes : List Byte) (m : Memory) (a a' : Nat) :
    (m.putAll a bytes).byteAt a' =
      if a ≤ a' then (bytes[a' - a]?).getD (m.byteAt a') else m.byteAt a' := by
  induction bytes generalizing m a with
  | nil => simp [Memory.putAll]
  | cons b bs ih =>
    rw [Memory.putAll, ih, Memory.byteAt_put]
    by_cases h : a' = a
    · subst h
      simp
    · by_cases hle : a ≤ a'
      · have step : a + 1 ≤ a' := by omega
        have pos : a' - a = (a' - (a + 1)) + 1 := by omega
        simp [hle, step, h, pos]
      · have step : ¬ a + 1 ≤ a' := by omega
        simp [hle, step, h]

/-- A stored byte reads as written (R53). -/
theorem Memory.byteAt_putAll_stored (m : Memory) (a k : Nat) (bytes : List Byte) (h : k < bytes.length) :
    (m.putAll a bytes).byteAt (a + k) = bytes[k] := by
  simp [Memory.byteAt_putAll, h]

/-- Every byte outside the stored ones reads as before (R53). -/
theorem Memory.byteAt_putAll_other (m : Memory) (a a' : Nat) (bytes : List Byte)
    (h : a' < a ∨ a + bytes.length ≤ a') : (m.putAll a bytes).byteAt a' = m.byteAt a' := by
  rw [Memory.byteAt_putAll]
  split
  · rw [List.getElem?_eq_none (by omega)]
    rfl
  · rfl

/-! ## The canonical form -/

theorem Memory.wfFrom_cons (lo k : Nat) (c : Byte) (m : Memory) :
    Memory.wfFrom lo ((k, c) :: m) = true ↔
      lo ≤ k ∧ k < Config.memSize ∧ c ≠ Memory.unlisted ∧ Memory.wfFrom (k + 1) m = true := by
  simp [Memory.wfFrom, and_assoc]

theorem Memory.wfFrom_mono {lo lo' : Nat} {m : Memory} (h : lo ≤ lo') (wf : Memory.wfFrom lo' m = true) :
    Memory.wfFrom lo m = true := by
  cases m with
  | nil => rfl
  | cons cell m =>
    obtain ⟨k, c⟩ := cell
    rw [Memory.wfFrom_cons] at wf ⊢
    exact ⟨by omega, wf.2⟩

theorem Memory.wfFrom_without {lo : Nat} {m : Memory} (a : Nat) (wf : Memory.wfFrom lo m = true) :
    Memory.wfFrom lo (m.without a) = true := by
  induction m generalizing lo with
  | nil => rfl
  | cons cell m ih =>
    obtain ⟨k, c⟩ := cell
    rw [Memory.wfFrom_cons] at wf
    have rest := ih wf.2.2.2
    by_cases hk : k = a
    · have : Memory.without ((k, c) :: m) a = Memory.without m a := by simp [Memory.without, hk]
      rw [this]
      exact Memory.wfFrom_mono (by omega) rest
    · have : Memory.without ((k, c) :: m) a = (k, c) :: Memory.without m a := by simp [Memory.without, hk]
      rw [this, Memory.wfFrom_cons]
      exact ⟨wf.1, wf.2.1, wf.2.2.1, rest⟩

theorem Memory.wfFrom_place {lo : Nat} {m : Memory} {a : Nat} {b : Byte} (wf : Memory.wfFrom lo m = true)
    (hlo : lo ≤ a) (ha : a < Config.memSize) (hb : b ≠ Memory.unlisted) (distinct : ∀ cell ∈ m, cell.1 ≠ a) :
    Memory.wfFrom lo (m.place a b) = true := by
  induction m generalizing lo with
  | nil => exact (Memory.wfFrom_cons ..).mpr ⟨hlo, ha, hb, rfl⟩
  | cons cell m ih =>
    obtain ⟨k, c⟩ := cell
    have hk : k ≠ a := distinct (k, c) (by simp)
    have rest : ∀ cell ∈ m, cell.1 ≠ a := fun cell h => distinct cell (by simp [h])
    rw [Memory.wfFrom_cons] at wf
    unfold Memory.place
    split
    · exact (Memory.wfFrom_cons ..).mpr ⟨wf.1, wf.2.1, wf.2.2.1, ih wf.2.2.2 (by omega) rest⟩
    · refine (Memory.wfFrom_cons ..).mpr ⟨hlo, ha, hb, (Memory.wfFrom_cons ..).mpr ⟨by omega, wf.2⟩⟩

/-- Writing a byte inside the array keeps the canonical form. -/
theorem Memory.wf_put {m : Memory} {a : Nat} (b : Byte) (wf : m.wf = true) (ha : a < Config.memSize) :
    (m.put a b).wf = true := by
  unfold Memory.put
  split
  · exact Memory.wfFrom_without a wf
  · next hb =>
    refine Memory.wfFrom_place (Memory.wfFrom_without a wf) (Nat.zero_le a) ha hb ?_
    intro cell h
    simpa using (List.mem_filter.mp h).2

/-- Writing several bytes inside the array keeps the canonical form. -/
theorem Memory.wf_putAll {bytes : List Byte} {m : Memory} {a : Nat} (wf : m.wf = true)
    (range : inRange a bytes.length = true) : (m.putAll a bytes).wf = true := by
  induction bytes generalizing m a with
  | nil => exact wf
  | cons b bs ih =>
    simp only [inRange, List.length_cons, decide_eq_true_eq] at range
    have fits : a + (bs.length + 1) ≤ Config.memSize := range.resolve_left (by omega)
    refine ih (Memory.wf_put b wf (by omega)) ?_
    simp only [inRange, decide_eq_true_eq]
    exact Or.inr (by omega)

/-- Below its first address a canonical memory reads as unlisted. -/
theorem Memory.byteAt_below {lo a : Nat} {m : Memory} (wf : Memory.wfFrom lo m = true) (h : a < lo) :
    m.byteAt a = Memory.unlisted := by
  induction m generalizing lo with
  | nil => rfl
  | cons cell m ih =>
    obtain ⟨k, c⟩ := cell
    rw [Memory.wfFrom_cons] at wf
    rw [Memory.byteAt_cons, if_neg (by omega)]
    exact ih wf.2.2.2 (by omega)

theorem Memory.wfFrom_ext {lo : Nat} {m m' : Memory} (wf : Memory.wfFrom lo m = true)
    (wf' : Memory.wfFrom lo m' = true) (same : ∀ a, m.byteAt a = m'.byteAt a) : m = m' := by
  induction m generalizing lo m' with
  | nil =>
    cases m' with
    | nil => rfl
    | cons cell m' =>
      obtain ⟨k, c⟩ := cell
      rw [Memory.wfFrom_cons] at wf'
      have := same k
      rw [Memory.byteAt_cons, if_pos rfl] at this
      exact absurd this.symm wf'.2.2.1
  | cons cell m ih =>
    obtain ⟨k, c⟩ := cell
    cases m' with
    | nil =>
      rw [Memory.wfFrom_cons] at wf
      have := same k
      rw [Memory.byteAt_cons, if_pos rfl] at this
      exact absurd this wf.2.2.1
    | cons cell' m' =>
      obtain ⟨k', c'⟩ := cell'
      rw [Memory.wfFrom_cons] at wf wf'
      have hk : k = k' := by
        rcases Nat.lt_trichotomy k k' with h | h | h
        · have e := same k
          rw [Memory.byteAt_cons, Memory.byteAt_cons, if_pos rfl, if_neg (by omega),
            Memory.byteAt_below wf'.2.2.2 (by omega)] at e
          exact absurd e wf.2.2.1
        · exact h
        · have e := same k'
          rw [Memory.byteAt_cons, Memory.byteAt_cons, if_pos rfl, if_neg (by omega),
            Memory.byteAt_below wf.2.2.2 (by omega)] at e
          exact absurd e.symm wf'.2.2.1
      subst hk
      have hc : c = c' := by simpa [Memory.byteAt_cons] using same k
      subst hc
      refine congrArg _ (ih wf.2.2.2 wf'.2.2.2 fun a => ?_)
      by_cases h : k = a
      · rw [Memory.byteAt_below wf.2.2.2 (by omega), Memory.byteAt_below wf'.2.2.2 (by omega)]
      · simpa [Memory.byteAt_cons, h] using same a

/-- Two canonical memories that read the same everywhere are equal data. -/
theorem Memory.wf_ext {m m' : Memory} (wf : m.wf = true) (wf' : m'.wf = true)
    (same : ∀ a, m.byteAt a = m'.byteAt a) : m = m' :=
  Memory.wfFrom_ext wf wf' same

end Sys2Proof.Machine
end

