-- ==== Sys2Proof/Laws/State.lean ====
section
/-! SUPPORT. What each field of the state holds after each named update: one lemma a field and update, so that no later
proof unfolds a record update. -/

namespace Sys2Proof.Machine

variable (s : State)

/-! ## `State.setMem` -/

@[simp] theorem State.setMem_v (m : Memory) : (State.setMem m s).v = s.v := rfl
@[simp] theorem State.setMem_i (m : Memory) : (State.setMem m s).i = s.i := rfl
@[simp] theorem State.setMem_pc (m : Memory) : (State.setMem m s).pc = s.pc := rfl
@[simp] theorem State.setMem_stack (m : Memory) : (State.setMem m s).stack = s.stack := rfl
@[simp] theorem State.setMem_sp (m : Memory) : (State.setMem m s).sp = s.sp := rfl
@[simp] theorem State.setMem_mem (m : Memory) : (State.setMem m s).mem = m := rfl
@[simp] theorem State.setMem_fb (m : Memory) : (State.setMem m s).fb = s.fb := rfl
@[simp] theorem State.setMem_redraw (m : Memory) : (State.setMem m s).redraw = s.redraw := rfl
@[simp] theorem State.setMem_clear (m : Memory) : (State.setMem m s).clear = s.clear := rfl
@[simp] theorem State.setMem_key (m : Memory) : (State.setMem m s).key = s.key := rfl
@[simp] theorem State.setMem_dt (m : Memory) : (State.setMem m s).dt = s.dt := rfl
@[simp] theorem State.setMem_cond (m : Memory) : (State.setMem m s).cond = s.cond := rfl
@[simp] theorem State.setMem_condLog (m : Memory) : (State.setMem m s).condLog = s.condLog := rfl
@[simp] theorem State.setMem_rndQueue (m : Memory) : (State.setMem m s).rndQueue = s.rndQueue := rfl
@[simp] theorem State.setMem_rndDraws (m : Memory) : (State.setMem m s).rndDraws = s.rndDraws := rfl

/-! ## `State.writeV` -/

@[simp] theorem State.writeV_v (x : Reg) (b : Byte) : (State.writeV x b s).v = s.v.set x b := rfl
@[simp] theorem State.writeV_i (x : Reg) (b : Byte) : (State.writeV x b s).i = s.i := rfl
@[simp] theorem State.writeV_pc (x : Reg) (b : Byte) : (State.writeV x b s).pc = s.pc := rfl
@[simp] theorem State.writeV_stack (x : Reg) (b : Byte) : (State.writeV x b s).stack = s.stack := rfl
@[simp] theorem State.writeV_sp (x : Reg) (b : Byte) : (State.writeV x b s).sp = s.sp := rfl
@[simp] theorem State.writeV_mem (x : Reg) (b : Byte) : (State.writeV x b s).mem = s.mem := rfl
@[simp] theorem State.writeV_fb (x : Reg) (b : Byte) : (State.writeV x b s).fb = s.fb := rfl
@[simp] theorem State.writeV_redraw (x : Reg) (b : Byte) : (State.writeV x b s).redraw = s.redraw := rfl
@[simp] theorem State.writeV_clear (x : Reg) (b : Byte) : (State.writeV x b s).clear = s.clear := rfl
@[simp] theorem State.writeV_key (x : Reg) (b : Byte) : (State.writeV x b s).key = s.key := rfl
@[simp] theorem State.writeV_dt (x : Reg) (b : Byte) : (State.writeV x b s).dt = s.dt := rfl
@[simp] theorem State.writeV_cond (x : Reg) (b : Byte) : (State.writeV x b s).cond = s.cond := rfl
@[simp] theorem State.writeV_condLog (x : Reg) (b : Byte) : (State.writeV x b s).condLog = s.condLog := rfl
@[simp] theorem State.writeV_rndQueue (x : Reg) (b : Byte) : (State.writeV x b s).rndQueue = s.rndQueue := rfl
@[simp] theorem State.writeV_rndDraws (x : Reg) (b : Byte) : (State.writeV x b s).rndDraws = s.rndDraws := rfl

/-! ## `State.writeBlock` -/

@[simp] theorem State.writeBlock_v (bytes : List Byte) : (State.writeBlock bytes s).v = Vector.ofFn fun k => (bytes[k.val]?).getD s.v[k] := rfl
@[simp] theorem State.writeBlock_i (bytes : List Byte) : (State.writeBlock bytes s).i = s.i := rfl
@[simp] theorem State.writeBlock_pc (bytes : List Byte) : (State.writeBlock bytes s).pc = s.pc := rfl
@[simp] theorem State.writeBlock_stack (bytes : List Byte) : (State.writeBlock bytes s).stack = s.stack := rfl
@[simp] theorem State.writeBlock_sp (bytes : List Byte) : (State.writeBlock bytes s).sp = s.sp := rfl
@[simp] theorem State.writeBlock_mem (bytes : List Byte) : (State.writeBlock bytes s).mem = s.mem := rfl
@[simp] theorem State.writeBlock_fb (bytes : List Byte) : (State.writeBlock bytes s).fb = s.fb := rfl
@[simp] theorem State.writeBlock_redraw (bytes : List Byte) : (State.writeBlock bytes s).redraw = s.redraw := rfl
@[simp] theorem State.writeBlock_clear (bytes : List Byte) : (State.writeBlock bytes s).clear = s.clear := rfl
@[simp] theorem State.writeBlock_key (bytes : List Byte) : (State.writeBlock bytes s).key = s.key := rfl
@[simp] theorem State.writeBlock_dt (bytes : List Byte) : (State.writeBlock bytes s).dt = s.dt := rfl
@[simp] theorem State.writeBlock_cond (bytes : List Byte) : (State.writeBlock bytes s).cond = s.cond := rfl
@[simp] theorem State.writeBlock_condLog (bytes : List Byte) : (State.writeBlock bytes s).condLog = s.condLog := rfl
@[simp] theorem State.writeBlock_rndQueue (bytes : List Byte) : (State.writeBlock bytes s).rndQueue = s.rndQueue := rfl
@[simp] theorem State.writeBlock_rndDraws (bytes : List Byte) : (State.writeBlock bytes s).rndDraws = s.rndDraws := rfl

/-! ## `State.setI` -/

@[simp] theorem State.setI_v (w : Word) : (State.setI w s).v = s.v := rfl
@[simp] theorem State.setI_i (w : Word) : (State.setI w s).i = w := rfl
@[simp] theorem State.setI_pc (w : Word) : (State.setI w s).pc = s.pc := rfl
@[simp] theorem State.setI_stack (w : Word) : (State.setI w s).stack = s.stack := rfl
@[simp] theorem State.setI_sp (w : Word) : (State.setI w s).sp = s.sp := rfl
@[simp] theorem State.setI_mem (w : Word) : (State.setI w s).mem = s.mem := rfl
@[simp] theorem State.setI_fb (w : Word) : (State.setI w s).fb = s.fb := rfl
@[simp] theorem State.setI_redraw (w : Word) : (State.setI w s).redraw = s.redraw := rfl
@[simp] theorem State.setI_clear (w : Word) : (State.setI w s).clear = s.clear := rfl
@[simp] theorem State.setI_key (w : Word) : (State.setI w s).key = s.key := rfl
@[simp] theorem State.setI_dt (w : Word) : (State.setI w s).dt = s.dt := rfl
@[simp] theorem State.setI_cond (w : Word) : (State.setI w s).cond = s.cond := rfl
@[simp] theorem State.setI_condLog (w : Word) : (State.setI w s).condLog = s.condLog := rfl
@[simp] theorem State.setI_rndQueue (w : Word) : (State.setI w s).rndQueue = s.rndQueue := rfl
@[simp] theorem State.setI_rndDraws (w : Word) : (State.setI w s).rndDraws = s.rndDraws := rfl

/-! ## `State.setPc` -/

@[simp] theorem State.setPc_v (w : Word) : (State.setPc w s).v = s.v := rfl
@[simp] theorem State.setPc_i (w : Word) : (State.setPc w s).i = s.i := rfl
@[simp] theorem State.setPc_pc (w : Word) : (State.setPc w s).pc = w := rfl
@[simp] theorem State.setPc_stack (w : Word) : (State.setPc w s).stack = s.stack := rfl
@[simp] theorem State.setPc_sp (w : Word) : (State.setPc w s).sp = s.sp := rfl
@[simp] theorem State.setPc_mem (w : Word) : (State.setPc w s).mem = s.mem := rfl
@[simp] theorem State.setPc_fb (w : Word) : (State.setPc w s).fb = s.fb := rfl
@[simp] theorem State.setPc_redraw (w : Word) : (State.setPc w s).redraw = s.redraw := rfl
@[simp] theorem State.setPc_clear (w : Word) : (State.setPc w s).clear = s.clear := rfl
@[simp] theorem State.setPc_key (w : Word) : (State.setPc w s).key = s.key := rfl
@[simp] theorem State.setPc_dt (w : Word) : (State.setPc w s).dt = s.dt := rfl
@[simp] theorem State.setPc_cond (w : Word) : (State.setPc w s).cond = s.cond := rfl
@[simp] theorem State.setPc_condLog (w : Word) : (State.setPc w s).condLog = s.condLog := rfl
@[simp] theorem State.setPc_rndQueue (w : Word) : (State.setPc w s).rndQueue = s.rndQueue := rfl
@[simp] theorem State.setPc_rndDraws (w : Word) : (State.setPc w s).rndDraws = s.rndDraws := rfl

/-! ## `State.setDT` -/

@[simp] theorem State.setDT_v (b : Byte) : (State.setDT b s).v = s.v := rfl
@[simp] theorem State.setDT_i (b : Byte) : (State.setDT b s).i = s.i := rfl
@[simp] theorem State.setDT_pc (b : Byte) : (State.setDT b s).pc = s.pc := rfl
@[simp] theorem State.setDT_stack (b : Byte) : (State.setDT b s).stack = s.stack := rfl
@[simp] theorem State.setDT_sp (b : Byte) : (State.setDT b s).sp = s.sp := rfl
@[simp] theorem State.setDT_mem (b : Byte) : (State.setDT b s).mem = s.mem := rfl
@[simp] theorem State.setDT_fb (b : Byte) : (State.setDT b s).fb = s.fb := rfl
@[simp] theorem State.setDT_redraw (b : Byte) : (State.setDT b s).redraw = s.redraw := rfl
@[simp] theorem State.setDT_clear (b : Byte) : (State.setDT b s).clear = s.clear := rfl
@[simp] theorem State.setDT_key (b : Byte) : (State.setDT b s).key = s.key := rfl
@[simp] theorem State.setDT_dt (b : Byte) : (State.setDT b s).dt = b := rfl
@[simp] theorem State.setDT_cond (b : Byte) : (State.setDT b s).cond = s.cond := rfl
@[simp] theorem State.setDT_condLog (b : Byte) : (State.setDT b s).condLog = s.condLog := rfl
@[simp] theorem State.setDT_rndQueue (b : Byte) : (State.setDT b s).rndQueue = s.rndQueue := rfl
@[simp] theorem State.setDT_rndDraws (b : Byte) : (State.setDT b s).rndDraws = s.rndDraws := rfl

/-! ## `State.report` -/

@[simp] theorem State.report_v (c : Condition) : (State.report c s).v = s.v := rfl
@[simp] theorem State.report_i (c : Condition) : (State.report c s).i = s.i := rfl
@[simp] theorem State.report_pc (c : Condition) : (State.report c s).pc = s.pc := rfl
@[simp] theorem State.report_stack (c : Condition) : (State.report c s).stack = s.stack := rfl
@[simp] theorem State.report_sp (c : Condition) : (State.report c s).sp = s.sp := rfl
@[simp] theorem State.report_mem (c : Condition) : (State.report c s).mem = s.mem := rfl
@[simp] theorem State.report_fb (c : Condition) : (State.report c s).fb = s.fb := rfl
@[simp] theorem State.report_redraw (c : Condition) : (State.report c s).redraw = s.redraw := rfl
@[simp] theorem State.report_clear (c : Condition) : (State.report c s).clear = s.clear := rfl
@[simp] theorem State.report_key (c : Condition) : (State.report c s).key = s.key := rfl
@[simp] theorem State.report_dt (c : Condition) : (State.report c s).dt = s.dt := rfl
@[simp] theorem State.report_cond (c : Condition) : (State.report c s).cond = some c := rfl
@[simp] theorem State.report_condLog (c : Condition) : (State.report c s).condLog = c :: s.condLog := rfl
@[simp] theorem State.report_rndQueue (c : Condition) : (State.report c s).rndQueue = s.rndQueue := rfl
@[simp] theorem State.report_rndDraws (c : Condition) : (State.report c s).rndDraws = s.rndDraws := rfl

/-! ## `State.setStack` -/

@[simp] theorem State.setStack_v (st : Vector Word 16) (d : BitVec 5) : (State.setStack st d s).v = s.v := rfl
@[simp] theorem State.setStack_i (st : Vector Word 16) (d : BitVec 5) : (State.setStack st d s).i = s.i := rfl
@[simp] theorem State.setStack_pc (st : Vector Word 16) (d : BitVec 5) : (State.setStack st d s).pc = s.pc := rfl
@[simp] theorem State.setStack_stack (st : Vector Word 16) (d : BitVec 5) : (State.setStack st d s).stack = st := rfl
@[simp] theorem State.setStack_sp (st : Vector Word 16) (d : BitVec 5) : (State.setStack st d s).sp = d := rfl
@[simp] theorem State.setStack_mem (st : Vector Word 16) (d : BitVec 5) : (State.setStack st d s).mem = s.mem := rfl
@[simp] theorem State.setStack_fb (st : Vector Word 16) (d : BitVec 5) : (State.setStack st d s).fb = s.fb := rfl
@[simp] theorem State.setStack_redraw (st : Vector Word 16) (d : BitVec 5) : (State.setStack st d s).redraw = s.redraw := rfl
@[simp] theorem State.setStack_clear (st : Vector Word 16) (d : BitVec 5) : (State.setStack st d s).clear = s.clear := rfl
@[simp] theorem State.setStack_key (st : Vector Word 16) (d : BitVec 5) : (State.setStack st d s).key = s.key := rfl
@[simp] theorem State.setStack_dt (st : Vector Word 16) (d : BitVec 5) : (State.setStack st d s).dt = s.dt := rfl
@[simp] theorem State.setStack_cond (st : Vector Word 16) (d : BitVec 5) : (State.setStack st d s).cond = s.cond := rfl
@[simp] theorem State.setStack_condLog (st : Vector Word 16) (d : BitVec 5) : (State.setStack st d s).condLog = s.condLog := rfl
@[simp] theorem State.setStack_rndQueue (st : Vector Word 16) (d : BitVec 5) : (State.setStack st d s).rndQueue = s.rndQueue := rfl
@[simp] theorem State.setStack_rndDraws (st : Vector Word 16) (d : BitVec 5) : (State.setStack st d s).rndDraws = s.rndDraws := rfl

/-! ## `State.setScreen` -/

@[simp] theorem State.setScreen_v (fb : Screen) : (State.setScreen fb s).v = s.v := rfl
@[simp] theorem State.setScreen_i (fb : Screen) : (State.setScreen fb s).i = s.i := rfl
@[simp] theorem State.setScreen_pc (fb : Screen) : (State.setScreen fb s).pc = s.pc := rfl
@[simp] theorem State.setScreen_stack (fb : Screen) : (State.setScreen fb s).stack = s.stack := rfl
@[simp] theorem State.setScreen_sp (fb : Screen) : (State.setScreen fb s).sp = s.sp := rfl
@[simp] theorem State.setScreen_mem (fb : Screen) : (State.setScreen fb s).mem = s.mem := rfl
@[simp] theorem State.setScreen_fb (fb : Screen) : (State.setScreen fb s).fb = fb := rfl
@[simp] theorem State.setScreen_redraw (fb : Screen) : (State.setScreen fb s).redraw = s.redraw := rfl
@[simp] theorem State.setScreen_clear (fb : Screen) : (State.setScreen fb s).clear = s.clear := rfl
@[simp] theorem State.setScreen_key (fb : Screen) : (State.setScreen fb s).key = s.key := rfl
@[simp] theorem State.setScreen_dt (fb : Screen) : (State.setScreen fb s).dt = s.dt := rfl
@[simp] theorem State.setScreen_cond (fb : Screen) : (State.setScreen fb s).cond = s.cond := rfl
@[simp] theorem State.setScreen_condLog (fb : Screen) : (State.setScreen fb s).condLog = s.condLog := rfl
@[simp] theorem State.setScreen_rndQueue (fb : Screen) : (State.setScreen fb s).rndQueue = s.rndQueue := rfl
@[simp] theorem State.setScreen_rndDraws (fb : Screen) : (State.setScreen fb s).rndDraws = s.rndDraws := rfl

/-! ## `State.raiseRedraw` -/

@[simp] theorem State.raiseRedraw_v : (State.raiseRedraw s).v = s.v := rfl
@[simp] theorem State.raiseRedraw_i : (State.raiseRedraw s).i = s.i := rfl
@[simp] theorem State.raiseRedraw_pc : (State.raiseRedraw s).pc = s.pc := rfl
@[simp] theorem State.raiseRedraw_stack : (State.raiseRedraw s).stack = s.stack := rfl
@[simp] theorem State.raiseRedraw_sp : (State.raiseRedraw s).sp = s.sp := rfl
@[simp] theorem State.raiseRedraw_mem : (State.raiseRedraw s).mem = s.mem := rfl
@[simp] theorem State.raiseRedraw_fb : (State.raiseRedraw s).fb = s.fb := rfl
@[simp] theorem State.raiseRedraw_redraw : (State.raiseRedraw s).redraw = true := rfl
@[simp] theorem State.raiseRedraw_clear : (State.raiseRedraw s).clear = s.clear := rfl
@[simp] theorem State.raiseRedraw_key : (State.raiseRedraw s).key = s.key := rfl
@[simp] theorem State.raiseRedraw_dt : (State.raiseRedraw s).dt = s.dt := rfl
@[simp] theorem State.raiseRedraw_cond : (State.raiseRedraw s).cond = s.cond := rfl
@[simp] theorem State.raiseRedraw_condLog : (State.raiseRedraw s).condLog = s.condLog := rfl
@[simp] theorem State.raiseRedraw_rndQueue : (State.raiseRedraw s).rndQueue = s.rndQueue := rfl
@[simp] theorem State.raiseRedraw_rndDraws : (State.raiseRedraw s).rndDraws = s.rndDraws := rfl

/-! ## `State.raiseClear` -/

@[simp] theorem State.raiseClear_v : (State.raiseClear s).v = s.v := rfl
@[simp] theorem State.raiseClear_i : (State.raiseClear s).i = s.i := rfl
@[simp] theorem State.raiseClear_pc : (State.raiseClear s).pc = s.pc := rfl
@[simp] theorem State.raiseClear_stack : (State.raiseClear s).stack = s.stack := rfl
@[simp] theorem State.raiseClear_sp : (State.raiseClear s).sp = s.sp := rfl
@[simp] theorem State.raiseClear_mem : (State.raiseClear s).mem = s.mem := rfl
@[simp] theorem State.raiseClear_fb : (State.raiseClear s).fb = s.fb := rfl
@[simp] theorem State.raiseClear_redraw : (State.raiseClear s).redraw = s.redraw := rfl
@[simp] theorem State.raiseClear_clear : (State.raiseClear s).clear = true := rfl
@[simp] theorem State.raiseClear_key : (State.raiseClear s).key = s.key := rfl
@[simp] theorem State.raiseClear_dt : (State.raiseClear s).dt = s.dt := rfl
@[simp] theorem State.raiseClear_cond : (State.raiseClear s).cond = s.cond := rfl
@[simp] theorem State.raiseClear_condLog : (State.raiseClear s).condLog = s.condLog := rfl
@[simp] theorem State.raiseClear_rndQueue : (State.raiseClear s).rndQueue = s.rndQueue := rfl
@[simp] theorem State.raiseClear_rndDraws : (State.raiseClear s).rndDraws = s.rndDraws := rfl

/-! ## `State.advance` -/

@[simp] theorem State.advance_v : (State.advance s).v = s.v := rfl
@[simp] theorem State.advance_i : (State.advance s).i = s.i := rfl
@[simp] theorem State.advance_pc : (State.advance s).pc = s.pc + 2 := rfl
@[simp] theorem State.advance_stack : (State.advance s).stack = s.stack := rfl
@[simp] theorem State.advance_sp : (State.advance s).sp = s.sp := rfl
@[simp] theorem State.advance_mem : (State.advance s).mem = s.mem := rfl
@[simp] theorem State.advance_fb : (State.advance s).fb = s.fb := rfl
@[simp] theorem State.advance_redraw : (State.advance s).redraw = s.redraw := rfl
@[simp] theorem State.advance_clear : (State.advance s).clear = s.clear := rfl
@[simp] theorem State.advance_key : (State.advance s).key = s.key := rfl
@[simp] theorem State.advance_dt : (State.advance s).dt = s.dt := rfl
@[simp] theorem State.advance_cond : (State.advance s).cond = none := rfl
@[simp] theorem State.advance_condLog : (State.advance s).condLog = s.condLog := rfl
@[simp] theorem State.advance_rndQueue : (State.advance s).rndQueue = s.rndQueue := rfl
@[simp] theorem State.advance_rndDraws : (State.advance s).rndDraws = s.rndDraws := rfl

/-! ## `State.injectRandom` -/

@[simp] theorem State.injectRandom_v (bytes : List Byte) : (State.injectRandom bytes s).v = s.v := rfl
@[simp] theorem State.injectRandom_i (bytes : List Byte) : (State.injectRandom bytes s).i = s.i := rfl
@[simp] theorem State.injectRandom_pc (bytes : List Byte) : (State.injectRandom bytes s).pc = s.pc := rfl
@[simp] theorem State.injectRandom_stack (bytes : List Byte) : (State.injectRandom bytes s).stack = s.stack := rfl
@[simp] theorem State.injectRandom_sp (bytes : List Byte) : (State.injectRandom bytes s).sp = s.sp := rfl
@[simp] theorem State.injectRandom_mem (bytes : List Byte) : (State.injectRandom bytes s).mem = s.mem := rfl
@[simp] theorem State.injectRandom_fb (bytes : List Byte) : (State.injectRandom bytes s).fb = s.fb := rfl
@[simp] theorem State.injectRandom_redraw (bytes : List Byte) : (State.injectRandom bytes s).redraw = s.redraw := rfl
@[simp] theorem State.injectRandom_clear (bytes : List Byte) : (State.injectRandom bytes s).clear = s.clear := rfl
@[simp] theorem State.injectRandom_key (bytes : List Byte) : (State.injectRandom bytes s).key = s.key := rfl
@[simp] theorem State.injectRandom_dt (bytes : List Byte) : (State.injectRandom bytes s).dt = s.dt := rfl
@[simp] theorem State.injectRandom_cond (bytes : List Byte) : (State.injectRandom bytes s).cond = s.cond := rfl
@[simp] theorem State.injectRandom_condLog (bytes : List Byte) : (State.injectRandom bytes s).condLog = s.condLog := rfl
@[simp] theorem State.injectRandom_rndQueue (bytes : List Byte) : (State.injectRandom bytes s).rndQueue = bytes := rfl
@[simp] theorem State.injectRandom_rndDraws (bytes : List Byte) : (State.injectRandom bytes s).rndDraws = s.rndDraws := rfl

/-! ## `State.keyWrite` -/

@[simp] theorem State.keyWrite_v (k : Fin 16) (b : Bool) : (State.keyWrite k b s).v = s.v := rfl
@[simp] theorem State.keyWrite_i (k : Fin 16) (b : Bool) : (State.keyWrite k b s).i = s.i := rfl
@[simp] theorem State.keyWrite_pc (k : Fin 16) (b : Bool) : (State.keyWrite k b s).pc = s.pc := rfl
@[simp] theorem State.keyWrite_stack (k : Fin 16) (b : Bool) : (State.keyWrite k b s).stack = s.stack := rfl
@[simp] theorem State.keyWrite_sp (k : Fin 16) (b : Bool) : (State.keyWrite k b s).sp = s.sp := rfl
@[simp] theorem State.keyWrite_mem (k : Fin 16) (b : Bool) : (State.keyWrite k b s).mem = s.mem := rfl
@[simp] theorem State.keyWrite_fb (k : Fin 16) (b : Bool) : (State.keyWrite k b s).fb = s.fb := rfl
@[simp] theorem State.keyWrite_redraw (k : Fin 16) (b : Bool) : (State.keyWrite k b s).redraw = s.redraw := rfl
@[simp] theorem State.keyWrite_clear (k : Fin 16) (b : Bool) : (State.keyWrite k b s).clear = s.clear := rfl
@[simp] theorem State.keyWrite_key (k : Fin 16) (b : Bool) : (State.keyWrite k b s).key = s.key.set k b := rfl
@[simp] theorem State.keyWrite_dt (k : Fin 16) (b : Bool) : (State.keyWrite k b s).dt = s.dt := rfl
@[simp] theorem State.keyWrite_cond (k : Fin 16) (b : Bool) : (State.keyWrite k b s).cond = s.cond := rfl
@[simp] theorem State.keyWrite_condLog (k : Fin 16) (b : Bool) : (State.keyWrite k b s).condLog = s.condLog := rfl
@[simp] theorem State.keyWrite_rndQueue (k : Fin 16) (b : Bool) : (State.keyWrite k b s).rndQueue = s.rndQueue := rfl
@[simp] theorem State.keyWrite_rndDraws (k : Fin 16) (b : Bool) : (State.keyWrite k b s).rndDraws = s.rndDraws := rfl

/-! ## `State.skipIf` -/

@[simp] theorem State.skipIf_v (c : Bool) : (State.skipIf c s).v = s.v := by
  unfold State.skipIf; split <;> rfl
@[simp] theorem State.skipIf_i (c : Bool) : (State.skipIf c s).i = s.i := by
  unfold State.skipIf; split <;> rfl
@[simp] theorem State.skipIf_stack (c : Bool) : (State.skipIf c s).stack = s.stack := by
  unfold State.skipIf; split <;> rfl
@[simp] theorem State.skipIf_sp (c : Bool) : (State.skipIf c s).sp = s.sp := by
  unfold State.skipIf; split <;> rfl
@[simp] theorem State.skipIf_mem (c : Bool) : (State.skipIf c s).mem = s.mem := by
  unfold State.skipIf; split <;> rfl
@[simp] theorem State.skipIf_fb (c : Bool) : (State.skipIf c s).fb = s.fb := by
  unfold State.skipIf; split <;> rfl
@[simp] theorem State.skipIf_redraw (c : Bool) : (State.skipIf c s).redraw = s.redraw := by
  unfold State.skipIf; split <;> rfl
@[simp] theorem State.skipIf_clear (c : Bool) : (State.skipIf c s).clear = s.clear := by
  unfold State.skipIf; split <;> rfl
@[simp] theorem State.skipIf_key (c : Bool) : (State.skipIf c s).key = s.key := by
  unfold State.skipIf; split <;> rfl
@[simp] theorem State.skipIf_dt (c : Bool) : (State.skipIf c s).dt = s.dt := by
  unfold State.skipIf; split <;> rfl
@[simp] theorem State.skipIf_cond (c : Bool) : (State.skipIf c s).cond = s.cond := by
  unfold State.skipIf; split <;> rfl
@[simp] theorem State.skipIf_condLog (c : Bool) : (State.skipIf c s).condLog = s.condLog := by
  unfold State.skipIf; split <;> rfl
@[simp] theorem State.skipIf_rndQueue (c : Bool) : (State.skipIf c s).rndQueue = s.rndQueue := by
  unfold State.skipIf; split <;> rfl
@[simp] theorem State.skipIf_rndDraws (c : Bool) : (State.skipIf c s).rndDraws = s.rndDraws := by
  unfold State.skipIf; split <;> rfl

/-! ## `State.advanceRnd` -/

@[simp] theorem State.advanceRnd_v : (State.advanceRnd s).v = s.v := by
  unfold State.advanceRnd; split <;> rfl
@[simp] theorem State.advanceRnd_i : (State.advanceRnd s).i = s.i := by
  unfold State.advanceRnd; split <;> rfl
@[simp] theorem State.advanceRnd_pc : (State.advanceRnd s).pc = s.pc := by
  unfold State.advanceRnd; split <;> rfl
@[simp] theorem State.advanceRnd_stack : (State.advanceRnd s).stack = s.stack := by
  unfold State.advanceRnd; split <;> rfl
@[simp] theorem State.advanceRnd_sp : (State.advanceRnd s).sp = s.sp := by
  unfold State.advanceRnd; split <;> rfl
@[simp] theorem State.advanceRnd_mem : (State.advanceRnd s).mem = s.mem := by
  unfold State.advanceRnd; split <;> rfl
@[simp] theorem State.advanceRnd_fb : (State.advanceRnd s).fb = s.fb := by
  unfold State.advanceRnd; split <;> rfl
@[simp] theorem State.advanceRnd_redraw : (State.advanceRnd s).redraw = s.redraw := by
  unfold State.advanceRnd; split <;> rfl
@[simp] theorem State.advanceRnd_clear : (State.advanceRnd s).clear = s.clear := by
  unfold State.advanceRnd; split <;> rfl
@[simp] theorem State.advanceRnd_key : (State.advanceRnd s).key = s.key := by
  unfold State.advanceRnd; split <;> rfl
@[simp] theorem State.advanceRnd_dt : (State.advanceRnd s).dt = s.dt := by
  unfold State.advanceRnd; split <;> rfl
@[simp] theorem State.advanceRnd_cond : (State.advanceRnd s).cond = s.cond := by
  unfold State.advanceRnd; split <;> rfl
@[simp] theorem State.advanceRnd_condLog : (State.advanceRnd s).condLog = s.condLog := by
  unfold State.advanceRnd; split <;> rfl

/-! ## `State.writeAlu` -/

@[simp] theorem State.writeAlu_i (x : Reg) (out : Byte × Option Bool) : (State.writeAlu x out s).i = s.i := by
  unfold State.writeAlu; split <;> rfl
@[simp] theorem State.writeAlu_pc (x : Reg) (out : Byte × Option Bool) : (State.writeAlu x out s).pc = s.pc := by
  unfold State.writeAlu; split <;> rfl
@[simp] theorem State.writeAlu_stack (x : Reg) (out : Byte × Option Bool) : (State.writeAlu x out s).stack = s.stack := by
  unfold State.writeAlu; split <;> rfl
@[simp] theorem State.writeAlu_sp (x : Reg) (out : Byte × Option Bool) : (State.writeAlu x out s).sp = s.sp := by
  unfold State.writeAlu; split <;> rfl
@[simp] theorem State.writeAlu_mem (x : Reg) (out : Byte × Option Bool) : (State.writeAlu x out s).mem = s.mem := by
  unfold State.writeAlu; split <;> rfl
@[simp] theorem State.writeAlu_fb (x : Reg) (out : Byte × Option Bool) : (State.writeAlu x out s).fb = s.fb := by
  unfold State.writeAlu; split <;> rfl
@[simp] theorem State.writeAlu_redraw (x : Reg) (out : Byte × Option Bool) : (State.writeAlu x out s).redraw = s.redraw := by
  unfold State.writeAlu; split <;> rfl
@[simp] theorem State.writeAlu_clear (x : Reg) (out : Byte × Option Bool) : (State.writeAlu x out s).clear = s.clear := by
  unfold State.writeAlu; split <;> rfl
@[simp] theorem State.writeAlu_key (x : Reg) (out : Byte × Option Bool) : (State.writeAlu x out s).key = s.key := by
  unfold State.writeAlu; split <;> rfl
@[simp] theorem State.writeAlu_dt (x : Reg) (out : Byte × Option Bool) : (State.writeAlu x out s).dt = s.dt := by
  unfold State.writeAlu; split <;> rfl
@[simp] theorem State.writeAlu_cond (x : Reg) (out : Byte × Option Bool) : (State.writeAlu x out s).cond = s.cond := by
  unfold State.writeAlu; split <;> rfl
@[simp] theorem State.writeAlu_condLog (x : Reg) (out : Byte × Option Bool) : (State.writeAlu x out s).condLog = s.condLog := by
  unfold State.writeAlu; split <;> rfl
@[simp] theorem State.writeAlu_rndQueue (x : Reg) (out : Byte × Option Bool) : (State.writeAlu x out s).rndQueue = s.rndQueue := by
  unfold State.writeAlu; split <;> rfl
@[simp] theorem State.writeAlu_rndDraws (x : Reg) (out : Byte × Option Bool) : (State.writeAlu x out s).rndDraws = s.rndDraws := by
  unfold State.writeAlu; split <;> rfl

/-! ## `State.timerTick` -/

@[simp] theorem State.timerTick_v : (State.timerTick s).v = s.v := by
  unfold State.timerTick; split <;> rfl
@[simp] theorem State.timerTick_i : (State.timerTick s).i = s.i := by
  unfold State.timerTick; split <;> rfl
@[simp] theorem State.timerTick_pc : (State.timerTick s).pc = s.pc := by
  unfold State.timerTick; split <;> rfl
@[simp] theorem State.timerTick_stack : (State.timerTick s).stack = s.stack := by
  unfold State.timerTick; split <;> rfl
@[simp] theorem State.timerTick_sp : (State.timerTick s).sp = s.sp := by
  unfold State.timerTick; split <;> rfl
@[simp] theorem State.timerTick_mem : (State.timerTick s).mem = s.mem := by
  unfold State.timerTick; split <;> rfl
@[simp] theorem State.timerTick_fb : (State.timerTick s).fb = s.fb := by
  unfold State.timerTick; split <;> rfl
@[simp] theorem State.timerTick_redraw : (State.timerTick s).redraw = s.redraw := by
  unfold State.timerTick; split <;> rfl
@[simp] theorem State.timerTick_clear : (State.timerTick s).clear = s.clear := by
  unfold State.timerTick; split <;> rfl
@[simp] theorem State.timerTick_key : (State.timerTick s).key = s.key := by
  unfold State.timerTick; split <;> rfl
@[simp] theorem State.timerTick_cond : (State.timerTick s).cond = s.cond := by
  unfold State.timerTick; split <;> rfl
@[simp] theorem State.timerTick_condLog : (State.timerTick s).condLog = s.condLog := by
  unfold State.timerTick; split <;> rfl
@[simp] theorem State.timerTick_rndQueue : (State.timerTick s).rndQueue = s.rndQueue := by
  unfold State.timerTick; split <;> rfl
@[simp] theorem State.timerTick_rndDraws : (State.timerTick s).rndDraws = s.rndDraws := by
  unfold State.timerTick; split <;> rfl

/-! ## The changed fields of the updates that look at the state first -/

theorem State.skipIf_pc (c : Bool) : (State.skipIf c s).pc = if c then s.pc + 2 else s.pc := by
  cases c <;> rfl

theorem State.advanceRnd_rndQueue : (State.advanceRnd s).rndQueue = s.rndQueue.tail := by
  unfold State.advanceRnd; split <;> simp [*]

theorem State.advanceRnd_rndDraws :
    (State.advanceRnd s).rndDraws = if s.rndQueue = [] then s.rndDraws + 1 else s.rndDraws := by
  unfold State.advanceRnd; split <;> simp [*]

theorem State.timerTick_dt : (State.timerTick s).dt = if s.dt = 0 then 0 else s.dt - 1 := by
  unfold State.timerTick; split <;> simp [*]

/-! ## Reading one register -/

theorem State.readV_eq (x : Reg) : s.readV x = s.v[x] := rfl

/-- Read after write, for a general register. -/
theorem State.writeV_get (x : Reg) (b : Byte) (k : Nat) (h : k < 16) :
    (State.writeV x b s).v[k] = if x.val = k then b else s.v[k] := by
  simp [Vector.getElem_set]

/-- A block write reaches the registers the list reaches. -/
theorem State.writeBlock_get (bytes : List Byte) (k : Nat) (h : k < 16) :
    (State.writeBlock bytes s).v[k] = (bytes[k]?).getD s.v[k] := by
  simp

/-- An alu write: the result in `V[x]`, then the flag, if there is one, in VF unless `x` is VF (R24). -/
theorem State.writeAlu_get (x : Reg) (out : Byte × Option Bool) (k : Nat) (h : k < 16) :
    (State.writeAlu x out s).v[k] =
      if x.val = k then out.1 else if k = 15 then (out.2.map flagByte).getD s.v[k] else s.v[k] := by
  obtain ⟨r, f⟩ := out
  by_cases h15 : k = 15
  · subst h15
    cases f <;> simp [State.writeAlu, Vector.getElem_set]
  · have : ¬ 15 = k := fun e => h15 e.symm
    cases f <;> simp [State.writeAlu, Vector.getElem_set, h15, this]

end Sys2Proof.Machine
end

