-- ==== Sys2Proof/Laws/Ops.lean ====
section
/-! SUPPORT. One law for each shared operation: everything it can answer, and when. Later proofs cite these and do not
unfold the operation. -/

namespace Sys2Proof.Machine

theorem inRange_iff (a n : Nat) : inRange a n = true ↔ n = 0 ∨ a + n ≤ 4096 := by
  simp [inRange, Config.memSize]

/-- A range-checked load answers the bytes in order when the range fits, else nothing (R52, R65). -/
theorem State.loadBytes_eq (s : State) (a n : Nat) :
    s.loadBytes a n =
      if n = 0 ∨ a + n ≤ 4096 then some ((List.range n).map fun k => s.mem.byteAt (a + k)) else none := by
  simp only [State.loadBytes, inRange_iff]

/-- A range-checked store changes only memory when the range fits, else it answers nothing (R53, R65). -/
theorem State.storeBytes_eq (s : State) (a : Nat) (bytes : List Byte) :
    s.storeBytes a bytes =
      if bytes.length = 0 ∨ a + bytes.length ≤ 4096 then some (s.setMem (s.mem.putAll a bytes)) else none := by
  simp only [State.storeBytes, inRange_iff]

/-- The fetch answers the two bytes at `pc`, the lower address the high byte, when `pc ≤ 4094` (R54, R101). -/
theorem State.fetch_eq (s : State) :
    s.fetch =
      if s.pc.toNat ≤ 4094 then some (s.mem.byteAt s.pc.toNat ++ s.mem.byteAt (s.pc.toNat + 1)) else none := by
  have : inRange s.pc.toNat 2 = true ↔ s.pc.toNat ≤ 4094 := by rw [inRange_iff]; omega
  simp only [State.fetch, State.memRead2, this, wordOfBytes]

/-- A push with room writes the slot at the depth and goes one deeper; with none it answers nothing (R102). -/
theorem State.push_eq (s : State) (a : Word) :
    s.push a =
      if 16 ≤ s.sp.toNat then none
      else some (s.setStack (s.stack.setIfInBounds s.sp.toNat a) (s.sp + 1)) := rfl

/-- A pop of an empty stack. -/
theorem State.pop_empty {s : State} (h : s.sp.toNat = 0) : s.pop = .empty := by
  have : s.sp = 0 := BitVec.eq_of_toNat_eq h
  simp [State.pop, this]

/-- A pop of a stack of legal depth: the top entry, its slot zeroed, one less deep (R103). -/
theorem State.pop_word {s : State} (lo : 0 < s.sp.toNat) (hi : s.sp.toNat ≤ 16) :
    s.pop = .word (s.stack[s.sp.toNat - 1]'(by omega))
      (s.setStack (s.stack.setIfInBounds (s.sp.toNat - 1) 0#16) (s.sp - 1)) := by
  have : s.sp ≠ 0 := fun e => by rw [e] at lo; exact absurd lo (by decide)
  have bound : s.sp.toNat - 1 < 16 := by omega
  rw [State.pop, if_neg this]
  simp [bound]

/-- A pop from beyond the sixteen slots. -/
theorem State.pop_absent {s : State} (h : 16 < s.sp.toNat) : s.pop = .absent := by
  have nonzero : s.sp ≠ 0 := fun e => by rw [e] at h; exact absurd h (by decide)
  have : s.stack[s.sp.toNat - 1]? = none := by simp; omega
  rw [State.pop, if_neg nonzero, this]

/-- The key an instruction names, when its register holds an index of the array (R112). -/
theorem State.keyOf_eq (s : State) (x : Reg) :
    s.keyOf x = if h : s.v[x].toNat < 16 then some s.key[s.v[x].toNat] else none := by
  simp only [State.keyOf, State.readV]
  split
  · simp [*]
  · next h => simpa using h

/-- The byte of the block at position `k` is register `k`, for the registers the block has (R166). -/
theorem State.block_get (s : State) (x : Reg) (k : Nat) :
    (s.block x)[k]? = if h : k ≤ x.val then some (s.v[k]'(by omega)) else none := by
  have := x.isLt
  simp only [State.block, blockLength, List.getElem?_take]
  split
  · next h =>
    have hk : k ≤ x.val := by omega
    have : k < 16 := by omega
    simp [hk, this]
  · next h =>
    have hk : ¬ k ≤ x.val := by omega
    simp [hk]

theorem State.block_length (s : State) (x : Reg) : (s.block x).length = x.val + 1 := by
  have := x.isLt
  simp [State.block, blockLength]

/-- The digits of a byte: hundreds, tens, ones (R164). -/
theorem bcd_toNat (b : Byte) :
    (bcd b).map BitVec.toNat = [b.toNat / 100, b.toNat / 10 % 10, b.toNat % 10] := by
  simp [bcd]

end Sys2Proof.Machine
end

