-- ==== Sys2Proof/Laws/Frame.lean ====
section
/-! SUPPORT. The frame of every shared update, and how frames compose. The frame of an instruction is the composition of
those of the updates its meaning makes. -/

namespace Sys2Proof.Machine

theorem SameExcept.refl (s : State) : SameExcept [] [] [] s s := by
  constructor <;> intros <;> first | rfl | exact ⟨rfl, rfl⟩

/-- One update after another may change what either may change. -/
theorem SameExcept.trans {r r' : List Reg} {m m' : List Nat} {p p' : List Part} {s t u : State}
    (h : SameExcept r m p s t) (h' : SameExcept r' m' p' t u) : SameExcept (r ++ r') (m ++ m') (p ++ p') s u where
  registers k hk := by
    simp only [List.mem_append, not_or] at hk
    rw [h'.registers k hk.2, h.registers k hk.1]
  memory a ha := by
    simp only [List.mem_append, not_or] at ha
    rw [h'.memory a ha.2, h.memory a ha.1]
  index hp := by
    simp only [List.mem_append, not_or] at hp
    rw [h'.index hp.2, h.index hp.1]
  pc hp := by
    simp only [List.mem_append, not_or] at hp
    rw [h'.pc hp.2, h.pc hp.1]
  stack hp := by
    simp only [List.mem_append, not_or] at hp
    rw [(h'.stack hp.2).1, (h'.stack hp.2).2]
    exact h.stack hp.1
  screen hp := by
    simp only [List.mem_append, not_or] at hp
    rw [h'.screen hp.2, h.screen hp.1]
  redraw hp := by
    simp only [List.mem_append, not_or] at hp
    rw [h'.redraw hp.2, h.redraw hp.1]
  clear hp := by
    simp only [List.mem_append, not_or] at hp
    rw [h'.clear hp.2, h.clear hp.1]
  timer hp := by
    simp only [List.mem_append, not_or] at hp
    rw [h'.timer hp.2, h.timer hp.1]
  random hp := by
    simp only [List.mem_append, not_or] at hp
    rw [(h'.random hp.2).1, (h'.random hp.2).2]
    exact h.random hp.1
  reports hp := by
    simp only [List.mem_append, not_or] at hp
    rw [(h'.reports hp.2).1, (h'.reports hp.2).2]
    exact h.reports hp.1
  keys := by rw [h'.keys, h.keys]

/-- A frame that allows more follows from one that allows less. -/
theorem SameExcept.mono {r r' : List Reg} {m m' : List Nat} {p p' : List Part} {s t : State}
    (h : SameExcept r m p s t) (hr : r ⊆ r') (hm : m ⊆ m') (hp : p ⊆ p') : SameExcept r' m' p' s t where
  registers k hk := h.registers k fun e => hk (hr e)
  memory a ha := h.memory a fun e => ha (hm e)
  index hq := h.index fun e => hq (hp e)
  pc hq := h.pc fun e => hq (hp e)
  stack hq := h.stack fun e => hq (hp e)
  screen hq := h.screen fun e => hq (hp e)
  redraw hq := h.redraw fun e => hq (hp e)
  clear hq := h.clear fun e => hq (hp e)
  timer hq := h.timer fun e => hq (hp e)
  random hq := h.random fun e => hq (hp e)
  reports hq := h.reports fun e => hq (hp e)
  keys := h.keys

/-- An update that leaves the registers, memory and keys alone, given what it leaves of the rest. -/
theorem SameExcept.ofParts {p : List Part} {s t : State} (hv : t.v = s.v) (hm : t.mem = s.mem) (hk : t.key = s.key)
    (hi : Part.index ∉ p → t.i = s.i) (hpc : Part.pc ∉ p → t.pc = s.pc)
    (hst : Part.stack ∉ p → t.stack = s.stack ∧ t.sp = s.sp) (hfb : Part.screen ∉ p → t.fb = s.fb)
    (hr : Part.redraw ∉ p → t.redraw = s.redraw) (hc : Part.clear ∉ p → t.clear = s.clear)
    (hdt : Part.timer ∉ p → t.dt = s.dt)
    (hrn : Part.random ∉ p → t.rndQueue = s.rndQueue ∧ t.rndDraws = s.rndDraws)
    (hre : Part.reports ∉ p → t.cond = s.cond ∧ t.condLog = s.condLog) : SameExcept [] [] p s t :=
  ⟨fun _ _ => by rw [hv], fun _ _ => by rw [hm], hi, hpc, hst, hfb, hr, hc, hdt, hrn, hre, hk⟩

variable (s : State)

theorem frame_setI (w : Word) : SameExcept [] [] [.index] s (s.setI w) := by
  apply SameExcept.ofParts <;> simp

theorem frame_setPc (w : Word) : SameExcept [] [] [.pc] s (s.setPc w) := by
  apply SameExcept.ofParts <;> simp

theorem frame_skipIf (c : Bool) : SameExcept [] [] [.pc] s (s.skipIf c) := by
  apply SameExcept.ofParts <;> simp

theorem frame_setDT (b : Byte) : SameExcept [] [] [.timer] s (s.setDT b) := by
  apply SameExcept.ofParts <;> simp

theorem frame_report (c : Condition) : SameExcept [] [] [.reports] s (s.report c) := by
  apply SameExcept.ofParts <;> simp

theorem frame_setStack (st : Vector Word 16) (d : BitVec 5) : SameExcept [] [] [.stack] s (s.setStack st d) := by
  apply SameExcept.ofParts <;> simp

theorem frame_setScreen (fb : Screen) : SameExcept [] [] [.screen] s (s.setScreen fb) := by
  apply SameExcept.ofParts <;> simp

theorem frame_raiseRedraw : SameExcept [] [] [.redraw] s s.raiseRedraw := by
  apply SameExcept.ofParts <;> simp

theorem frame_raiseClear : SameExcept [] [] [.clear] s s.raiseClear := by
  apply SameExcept.ofParts <;> simp

theorem frame_advance : SameExcept [] [] [.pc, .reports] s s.advance := by
  apply SameExcept.ofParts <;> simp

theorem frame_advanceRnd : SameExcept [] [] [.random] s s.advanceRnd := by
  apply SameExcept.ofParts <;> simp

theorem frame_injectRandom (bytes : List Byte) : SameExcept [] [] [.random] s (s.injectRandom bytes) := by
  apply SameExcept.ofParts <;> simp

theorem frame_timerTick : SameExcept [] [] [.timer] s s.timerTick := by
  apply SameExcept.ofParts <;> simp

/-- An update of the registers only, given which of them keep their values. -/
theorem SameExcept.ofRegs {r : List Reg} {s : State} {v : Vector Byte 16} (h : ∀ k : Reg, k ∉ r → v[k] = s.v[k]) :
    SameExcept r [] [] s { s with v := v } := by
  refine ⟨h, ?_, ?_, ?_, ?_, ?_, ?_, ?_, ?_, ?_, ?_, rfl⟩ <;> intros <;> first | rfl | exact ⟨rfl, rfl⟩

theorem frame_writeV (x : Reg) (b : Byte) : SameExcept [x] [] [] s (s.writeV x b) := by
  refine SameExcept.ofRegs fun k hk => ?_
  have : ¬ x.val = k.val := fun e => hk (by simp [Fin.ext e])
  simp [this]

theorem frame_writeBlock (bytes : List Byte) (x : Reg) (h : bytes.length = blockLength x) :
    SameExcept ((List.finRange 16).take (blockLength x)) [] [] s (s.writeBlock bytes) := by
  refine SameExcept.ofRegs fun k hk => ?_
  have : bytes.length ≤ k.val := by
    refine Nat.le_of_not_lt fun lt => hk ?_
    have hx := x.isLt
    rw [h, blockLength] at lt
    rw [List.mem_take_iff_getElem]
    exact ⟨k.val, by simp [blockLength]; omega, by simp⟩
  simp [this]

theorem frame_writeAlu (x : Reg) (out : Byte × Option Bool) :
    SameExcept [x, vf] [] [] s (s.writeAlu x out) := by
  obtain ⟨r, f⟩ := out
  cases f with
  | none => exact (frame_writeV s x r).mono (by simp) (by simp) (by simp)
  | some f => exact ((frame_writeV s vf _).trans (frame_writeV _ x r)).mono (by simp) (by simp) (by simp)

theorem frame_writeAlu_none (x : Reg) (r : Byte) : SameExcept [x] [] [] s (s.writeAlu x (r, none)) :=
  frame_writeV s x r

/-- A store of bytes changes the bytes it stores to (R53, R65). -/
theorem frame_putAll (a : Nat) (bytes : List Byte) :
    SameExcept [] ((List.range bytes.length).map (a + ·)) [] s (s.setMem (s.mem.putAll a bytes)) := by
  refine ⟨fun _ _ => rfl, fun a' h => ?_, ?_, ?_, ?_, ?_, ?_, ?_, ?_, ?_, ?_, rfl⟩
  · rw [State.setMem_mem, Memory.byteAt_putAll]
    split
    · next hle =>
      have : bytes.length ≤ a' - a := by
        refine Nat.le_of_not_lt fun lt => h ?_
        exact List.mem_map.mpr ⟨a' - a, by simpa using lt, by omega⟩
      simp [this]
    · rfl
  all_goals intros; first | rfl | exact ⟨rfl, rfl⟩

theorem State.indexedRange_eq (n : Nat) : s.indexedRange n = (List.range n).map (s.i.toNat + ·) := rfl

end Sys2Proof.Machine
end

