-- ==== Sys2Proof/Laws/PerInstr.lean ====
section
/-! SUPPORT. The per-instruction family `EncodeRow`: the encoding of an instruction selects the instruction's own row of
the opcode map (R74, R75, R77), for every value of its operands. -/

namespace Sys2Proof.Laws.EncodeRow

/-- The word of `i` selects the row of `i`. -/
def Statement (i : Instr) : Prop := i.row.selects (encode i) = true

/-- A word selects a row when masking it leaves a word equal to the row's pattern. -/
theorem of_masked {r : OpcodeRow} {w masked : Word} (h : w &&& r.mask = masked) (e : masked = r.pattern) :
    r.selects w = true := by
  simp [OpcodeRow.selects, h, e]

theorem cls : Statement .cls := of_masked rfl rfl
theorem ret : Statement .ret := of_masked rfl rfl
theorem jp (nnn : Addr) : Statement (.jp nnn) := of_masked (formatA_family ..) rfl
theorem call (nnn : Addr) : Statement (.call nnn) := of_masked (formatA_family ..) rfl
theorem seImm (x : Reg) (kk : Byte) : Statement (.seImm x kk) := of_masked (formatK_family ..) rfl
theorem sneImm (x : Reg) (kk : Byte) : Statement (.sneImm x kk) := of_masked (formatK_family ..) rfl
theorem seReg (x y : Reg) : Statement (.seReg x y) := of_masked (formatR_selected ..) rfl
theorem ldImm (x : Reg) (kk : Byte) : Statement (.ldImm x kk) := of_masked (formatK_family ..) rfl
theorem addImm (x : Reg) (kk : Byte) : Statement (.addImm x kk) := of_masked (formatK_family ..) rfl
theorem ldReg (x y : Reg) : Statement (.ldReg x y) := of_masked (formatR_selected ..) rfl
theorem orReg (x y : Reg) : Statement (.orReg x y) := of_masked (formatR_selected ..) rfl
theorem andReg (x y : Reg) : Statement (.andReg x y) := of_masked (formatR_selected ..) rfl
theorem xorReg (x y : Reg) : Statement (.xorReg x y) := of_masked (formatR_selected ..) rfl
theorem addReg (x y : Reg) : Statement (.addReg x y) := of_masked (formatR_selected ..) rfl
theorem subReg (x y : Reg) : Statement (.subReg x y) := of_masked (formatR_selected ..) rfl
theorem shr (x y : Reg) : Statement (.shr x y) := of_masked (formatR_selected ..) rfl
theorem subnReg (x y : Reg) : Statement (.subnReg x y) := of_masked (formatR_selected ..) rfl
theorem shl (x y : Reg) : Statement (.shl x y) := of_masked (formatR_selected ..) rfl
theorem sneReg (x y : Reg) : Statement (.sneReg x y) := of_masked (formatR_selected ..) rfl
theorem ldI (nnn : Addr) : Statement (.ldI nnn) := of_masked (formatA_family ..) rfl
theorem jpV0 (nnn : Addr) : Statement (.jpV0 nnn) := of_masked (formatA_family ..) rfl
theorem rnd (x : Reg) (kk : Byte) : Statement (.rnd x kk) := of_masked (formatK_family ..) rfl
theorem drw (x y : Reg) (n : Nibble) : Statement (.drw x y n) := of_masked (formatR_family ..) rfl
theorem skp (x : Reg) : Statement (.skp x) := of_masked (formatT_tagged ..) rfl
theorem sknp (x : Reg) : Statement (.sknp x) := of_masked (formatT_tagged ..) rfl
theorem ldVxDT (x : Reg) : Statement (.ldVxDT x) := of_masked (formatT_tagged ..) rfl
theorem ldDTVx (x : Reg) : Statement (.ldDTVx x) := of_masked (formatT_tagged ..) rfl
theorem addI (x : Reg) : Statement (.addI x) := of_masked (formatT_tagged ..) rfl
theorem ldF (x : Reg) : Statement (.ldF x) := of_masked (formatT_tagged ..) rfl
theorem ldB (x : Reg) : Statement (.ldB x) := of_masked (formatT_tagged ..) rfl
theorem storeRegs (x : Reg) : Statement (.storeRegs x) := of_masked (formatT_tagged ..) rfl
theorem loadRegs (x : Reg) : Statement (.loadRegs x) := of_masked (formatT_tagged ..) rfl

end Sys2Proof.Laws.EncodeRow
end

