-- ==== Sys2Proof/Laws/Screen.lean ====
section
/-! SUPPORT. The laws of the pixel buffer (43_display.md R150 to R153): what XorPixel does to each cell, that a sprite
covers no cell twice, and what a list of XORs leaves in each cell. -/

namespace Sys2Proof.Machine

theorem Screen.pixel_eq (fb : Screen) (p : Cell) : fb.pixel p = (fb[p.1.val])[p.2.val] := rfl

/-- Two buffers with the same cells are equal. -/
theorem Screen.ext_pixel {fb fb' : Screen} (same : ∀ p, fb.pixel p = fb'.pixel p) : fb = fb' := by
  apply Vector.ext
  intro r hr
  apply Vector.ext
  intro c hc
  exact same (⟨r, hr⟩, ⟨c, hc⟩)

@[simp] theorem Screen.pixel_blank (p : Cell) : Screen.blank.pixel p = false := by
  simp [Screen.pixel_eq, Screen.blank]

/-- XorPixel inverts its own cell and no other (R151). -/
theorem Screen.pixel_xorPixel (fb : Screen) (p q : Cell) :
    (fb.xorPixel p).1.pixel q = if q = p then !fb.pixel p else fb.pixel q := by
  obtain ⟨r, c⟩ := p
  obtain ⟨r', c'⟩ := q
  simp only [Screen.pixel_eq, Screen.xorPixel, Vector.getElem_set, Fin.getElem_fin, Prod.mk.injEq, Fin.ext_iff]
  by_cases hr : r.val = r'.val
  · by_cases hc : c.val = c'.val
    · simp [hr, hc]
    · have : ¬ c'.val = c.val := fun e => hc e.symm
      simp [hr, hc, this]
  · have : ¬ r'.val = r.val := fun e => hr e.symm
    simp [hr, this]

@[simp] theorem Screen.xorPixel_collides (fb : Screen) (p : Cell) : (fb.xorPixel p).2 = fb.pixel p := rfl

/-- XORing distinct cells inverts exactly them. -/
theorem Screen.pixel_xorCells (ps : List Cell) (fb : Screen) (distinct : ps.Nodup) (q : Cell) :
    (fb.xorCells ps).1.pixel q = (fb.pixel q ^^ decide (q ∈ ps)) := by
  induction ps generalizing fb with
  | nil => simp [Screen.xorCells]
  | cons p ps ih =>
    rw [List.nodup_cons] at distinct
    simp only [Screen.xorCells, ih _ distinct.2, Screen.pixel_xorPixel, List.mem_cons]
    by_cases h : q = p
    · subst h
      simp [distinct.1]
    · simp [h]

/-- XORing distinct cells collides when one of them was on (R153 (f)). -/
theorem Screen.collides_xorCells (ps : List Cell) (fb : Screen) (distinct : ps.Nodup) :
    (fb.xorCells ps).2 = ps.any fb.pixel := by
  induction ps generalizing fb with
  | nil => rfl
  | cons p ps ih =>
    rw [List.nodup_cons] at distinct
    simp only [Screen.xorCells, ih _ distinct.2, Screen.xorPixel_collides, List.any_cons]
    congr 1
    rw [Bool.eq_iff_iff, List.any_eq_true, List.any_eq_true]
    refine exists_congr fun q => and_congr_right fun hq => ?_
    rw [Screen.pixel_xorPixel, if_neg (fun e : q = p => distinct.1 (e ▸ hq))]

/-! ## The cells of a sprite -/

theorem mem_setColumns (bits : Byte) (c : Nat) : c ∈ setColumns bits ↔ c < 8 ∧ bits.getLsbD (7 - c) = true := by
  simp [setColumns]

theorem mem_rowCells (row col : Nat) (bits : Byte) (p : Cell) :
    p ∈ rowCells row col bits ↔
      ∃ c, c < 8 ∧ bits.getLsbD (7 - c) = true ∧ p.1.val = row % 32 ∧ p.2.val = (col + c) % 64 := by
  simp only [rowCells, List.mem_map, mem_setColumns, wrapCell]
  constructor
  · rintro ⟨c, ⟨hc, hb⟩, rfl⟩
    exact ⟨c, hc, hb, rfl, rfl⟩
  · rintro ⟨c, hc, hb, h1, h2⟩
    exact ⟨c, ⟨hc, hb⟩, Prod.ext (Fin.ext h1.symm) (Fin.ext h2.symm)⟩

/-- A cell is covered when some set bit of some row lands on it (R152). -/
theorem mem_spriteCells (bytes : List Byte) (row col : Nat) (p : Cell) :
    p ∈ spriteCells row col bytes ↔
      ∃ r c b, bytes[r]? = some b ∧ c < 8 ∧ b.getLsbD (7 - c) = true ∧
        p.1.val = (row + r) % 32 ∧ p.2.val = (col + c) % 64 := by
  induction bytes generalizing row with
  | nil => simp [spriteCells]
  | cons b bs ih =>
    simp only [spriteCells, List.mem_append, mem_rowCells, ih]
    constructor
    · rintro (⟨c, hc, hb, h1, h2⟩ | ⟨r, c, b', hr, hc, hb, h1, h2⟩)
      · exact ⟨0, c, b, rfl, hc, hb, h1, h2⟩
      · exact ⟨r + 1, c, b', hr, hc, hb, by rw [h1]; congr 1; omega, h2⟩
    · rintro ⟨r, c, b', hr, hc, hb, h1, h2⟩
      cases r with
      | zero =>
        obtain rfl : b = b' := by simpa using hr
        exact Or.inl ⟨c, hc, hb, h1, h2⟩
      | succ r => exact Or.inr ⟨r, c, b', hr, hc, hb, by rw [h1]; congr 1; omega, h2⟩

theorem nodup_rowCells (row col : Nat) (bits : Byte) : (rowCells row col bits).Nodup := by
  refine List.Nodup.map_on ?_ ((List.nodup_range).filter _)
  intro c hc c' hc' e
  have hc := ((mem_setColumns bits c).mp hc).1
  have hc' := ((mem_setColumns bits c').mp hc').1
  have : (col + c) % 64 = (col + c') % 64 := congrArg (fun p : Cell => p.2.val) e
  omega

/-- A sprite of at most 32 rows covers no cell twice (R153 (d)). -/
theorem nodup_spriteCells (bytes : List Byte) (row col : Nat) (h : bytes.length ≤ 32) :
    (spriteCells row col bytes).Nodup := by
  induction bytes generalizing row with
  | nil => exact List.nodup_nil
  | cons b bs ih =>
    simp only [List.length_cons] at h
    refine List.Nodup.append (nodup_rowCells row col b) (ih (row + 1) (by omega)) ?_
    intro p hp hp'
    obtain ⟨c, -, -, h1, -⟩ := (mem_rowCells ..).mp hp
    obtain ⟨r, c', b', hr, -, -, h1', -⟩ := (mem_spriteCells ..).mp hp'
    have : r < bs.length := (List.getElem?_eq_some_iff.mp hr).1
    omega

end Sys2Proof.Machine
end

