-- ==== Sys2Proof/Laws/Step.lean ====
section
/-! SUPPORT. What a step can do, said once (40_control_flow.md R100), and the memory instructions as one range test. -/

namespace Sys2Proof.Machine

theorem State.advance_pc_toNat {s : State} (h : s.pc.toNat ≤ 4094) : s.advance.pc.toNat = s.pc.toNat + 2 := by
  show (s.pc + 2).toNat = _
  rw [BitVec.toNat_add]
  simp
  omega

/-- A next state of a step is a failed fetch's report, an illegal word's report, or what an instruction does. -/
theorem step_cases {s t : State} (h : step s = .next t) :
    (4094 < s.pc.toNat ∧ t = s.report (.fetchOutOfRange s.pc)) ∨
    (s.pc.toNat ≤ 4094 ∧
      ((∃ ir, decode ir = .unknownOpcode ∧ t = s.advance.report (.unknownOpcode ir s.advance.pc)) ∨
       (∃ ir, decode ir = .invalidOpcodeFormat ∧ t = s.advance.report (.invalidOpcodeFormat ir s.advance.pc)) ∨
       (∃ ir i, decode ir = .instr i ∧ exec i s.advance = .next t))) := by
  unfold step at h
  split at h
  · next e =>
    rw [State.fetch_eq] at e
    split at e
    · cases e
    · cases h
      exact .inl ⟨by omega, rfl⟩
  · next e =>
    rw [State.fetch_eq] at e
    split at e
    · refine .inr ⟨by assumption, ?_⟩
      split at h
      · next d => cases h; exact .inl ⟨_, d, rfl⟩
      · next d => cases h; exact .inr (.inl ⟨_, d, rfl⟩)
      · next d => exact .inr (.inr ⟨_, _, d, h⟩)
    · cases e

theorem frame_outOfRange {i : Instr} {s t : State} (h : outOfRange i s = .next t) : SameExcept [] [] [.reports] s t := by
  cases h
  exact frame_report s _

variable (x : Reg) (s : State)

/-- `Dxyn` in one equation (R152, R65): in range the covered cells are drawn, else the step only reports. -/
theorem execDrw_eq (y : Reg) (n : Nibble) :
    execDrw x y n s =
      if n.toNat = 0 ∨ s.indexed 0 + n.toNat ≤ 4096 then
        let drawn := s.fb.xorCells (spriteCells (s.originRow y) (s.originCol x)
          ((List.range n.toNat).map fun k => s.mem.byteAt (s.indexed 0 + k)))
        .next ((s.writeV vf (flagByte drawn.2)).setScreen drawn.1).raiseRedraw
      else outOfRange (.drw x y n) s := by
  rw [execDrw, State.loadBytes_eq]
  split_ifs <;> rfl

/-- `Fx33` in one equation (R165, R65). -/
theorem execLdB_eq :
    execLdB x s =
      if s.indexed 0 + 3 ≤ 4096 then .next (s.setMem (s.mem.putAll (s.indexed 0) (bcd (s.readV x))))
      else outOfRange (.ldB x) s := by
  have len : (bcd (s.readV x)).length = 3 := rfl
  rw [execLdB, State.storeBytes_eq, len]
  simp only [show ¬ (3 = 0) by decide, false_or]
  split_ifs <;> rfl

/-- `Fx55` in one equation (R166, R65). -/
theorem execStoreRegs_eq :
    execStoreRegs x s =
      if s.indexed 0 + blockLength x ≤ 4096 then .next (s.setMem (s.mem.putAll (s.indexed 0) (s.block x)))
      else outOfRange (.storeRegs x) s := by
  have len : (s.block x).length = blockLength x := State.block_length s x
  rw [execStoreRegs, State.storeBytes_eq, len]
  simp only [show ¬ (blockLength x = 0) by simp [blockLength], false_or]
  split_ifs <;> rfl

/-- `Fx65` in one equation (R167, R65). -/
theorem execLoadRegs_eq :
    execLoadRegs x s =
      if s.indexed 0 + blockLength x ≤ 4096 then
        .next (s.writeBlock ((List.range (blockLength x)).map fun k => s.mem.byteAt (s.indexed 0 + k)))
      else outOfRange (.loadRegs x) s := by
  rw [execLoadRegs, State.loadBytes_eq]
  simp only [show ¬ (blockLength x = 0) by simp [blockLength], false_or]
  split_ifs <;> rfl

end Sys2Proof.Machine
end

