-- ==== Sys2Proof/Tests/Slice0.lean ====
section
/-! SUPPORT. The model's own tests: the well-formedness smoke, the words of every instruction written out from the
spec's encodings, one or two steps per instruction from the spec's vectors (95_test_vectors.md, cited by id), the host
operations, and for every obligation with hypotheses a state and operands that meet them. -/

namespace Sys2Proof.Tests

open Sys2Proof.Machine

/-! ## Well-formedness: a word for each kind of illegal word, and an image that is too long -/

/-- Family 0x0 outside `00E0` and `00EE` (R80). -/
theorem test_wellFormed_refuses_system : wellFormedWord 0x0000 = false ∧ wellFormedWord 0x00E1 = false := by decide

/-- `5xyN` with `N ≠ 0` (R81). -/
theorem test_wellFormed_refuses_5xyN : wellFormedWord 0x5121 = false := by decide

/-- `9xyN` with `N ≠ 0` (R81). -/
theorem test_wellFormed_refuses_9xyN : wellFormedWord 0x9121 = false := by decide

/-- `8xyN` with a low nibble of R80. -/
theorem test_wellFormed_refuses_alu : wellFormedWord 0x8128 = false ∧ wellFormedWord 0x812F = false := by decide

/-- `Exkk` with a tag of R80. -/
theorem test_wellFormed_refuses_key : wellFormedWord 0xE49F = false := by decide

/-- `Fxkk` with a tag of R80: `Fx0A` and `Fx18` of other CHIP-8 machines are not instructions here. -/
theorem test_wellFormed_refuses_misc : wellFormedWord 0xF00A = false ∧ wellFormedWord 0xF018 = false := by decide

/-- An image of 3585 bytes is refused, one of 3584 is not (R211). -/
theorem test_wellFormed_image : wellFormedImage (List.replicate 3585 0xAB) = false ∧
    wellFormedImage (List.replicate 3584 0xAB) = true := by
  rw [wellFormedImage, wellFormedImage, List.length_replicate, List.length_replicate]
  decide

theorem test_wellFormed_accepts_every_row : (opcodeRows.all fun r => wellFormedWord r.pattern) = true := by decide

/-! ## Decoding: every constructor's word, written out bit by bit from its format (R72 to R77) -/

theorem test_decode_system :
    decode 0b0000_0000_1110_0000 = .instr .cls ∧ decode 0b0000_0000_1110_1110 = .instr .ret := by decide

theorem test_decode_addresses :
    decode 0b0001_0010_0011_0100 = .instr (.jp 0x234) ∧ decode 0b0010_1111_1111_1111 = .instr (.call 0xFFF) ∧
    decode 0b1010_0010_0000_0000 = .instr (.ldI 0x200) ∧ decode 0b1011_0011_0000_0001 = .instr (.jpV0 0x301) := by decide

theorem test_decode_immediates :
    decode 0b0011_0011_0010_1010 = .instr (.seImm 3 0x2A) ∧ decode 0b0100_1111_0000_0001 = .instr (.sneImm 15 1) ∧
    decode 0b0110_0000_0000_0101 = .instr (.ldImm 0 5) ∧ decode 0b0111_0001_1111_1111 = .instr (.addImm 1 0xFF) ∧
    decode 0b1100_0011_0000_1111 = .instr (.rnd 3 0x0F) := by decide

theorem test_decode_register_pairs :
    decode 0b0101_0001_0010_0000 = .instr (.seReg 1 2) ∧ decode 0b1001_0001_1111_0000 = .instr (.sneReg 1 15) ∧
    decode 0b1101_0000_0001_0101 = .instr (.drw 0 1 5) := by decide

theorem test_decode_alu_logic :
    decode 0b1000_0001_0010_0000 = .instr (.ldReg 1 2) ∧ decode 0b1000_0001_0010_0001 = .instr (.orReg 1 2) ∧
    decode 0b1000_0001_0010_0010 = .instr (.andReg 1 2) ∧ decode 0b1000_0001_0010_0011 = .instr (.xorReg 1 2) := by decide

theorem test_decode_alu_arithmetic :
    decode 0b1000_0001_0010_0100 = .instr (.addReg 1 2) ∧ decode 0b1000_0001_0010_0101 = .instr (.subReg 1 2) ∧
    decode 0b1000_0001_1111_0110 = .instr (.shr 1 15) ∧ decode 0b1000_0001_0010_0111 = .instr (.subnReg 1 2) ∧
    decode 0b1000_0001_0000_1110 = .instr (.shl 1 0) := by decide

theorem test_decode_key :
    decode 0b1110_0100_1001_1110 = .instr (.skp 4) ∧ decode 0b1110_0100_1010_0001 = .instr (.sknp 4) := by decide

theorem test_decode_misc :
    decode 0b1111_0010_0000_0111 = .instr (.ldVxDT 2) ∧ decode 0b1111_0010_0001_0101 = .instr (.ldDTVx 2) ∧
    decode 0b1111_0001_0001_1110 = .instr (.addI 1) ∧ decode 0b1111_0011_0010_1001 = .instr (.ldF 3) ∧
    decode 0b1111_0000_0011_0011 = .instr (.ldB 0) ∧ decode 0b1111_0010_0101_0101 = .instr (.storeRegs 2) ∧
    decode 0b1111_1111_0110_0101 = .instr (.loadRegs 15) := by decide

/-- Words of R80 and R81. -/
theorem test_decode_illegal :
    decode 0x0123 = .unknownOpcode ∧ decode 0x812D = .unknownOpcode ∧ decode 0xE0A2 = .unknownOpcode ∧
    decode 0xFFFF = .unknownOpcode ∧ decode 0x512F = .invalidOpcodeFormat ∧ decode 0x9FFF = .invalidOpcodeFormat := by
  decide

/-- The table numbers a word's bits from its least significant one; in memory the high byte comes first (R54). -/
theorem test_tableWord : decodeTableWord 16 0xD015 = some (.drw 0 1 5) ∧ decodeTableWord 16 0xF00A = none ∧
    encodeBytes (.drw 0 1 5) = [0xD0, 0x15] := by decide

/-! ## Steps -/

/-- The reset state with some registers and `I` set. -/
def given (regs : List (Reg × Byte)) (i : Word := 0) : State :=
  (regs.foldl (fun s r => s.writeV r.1 r.2) State.reset).setI i

/-- Bytes stored from an address on. -/
def holding (a : Nat) (bytes : List Byte) (s : State) : State := s.setMem (s.mem.putAll a bytes)

/-- Is the state after one step of the word `hi lo`, placed at `pc`, as wanted? -/
def after (hi lo : Byte) (s : State) (wanted : State → Bool) : Bool :=
  match step (holding s.pc.toNat [hi, lo] s) with
  | .next t    => wanted t
  | .fault _   => false
  | .refused _ => false

/-- The state ran on to `pc` and reported nothing. -/
def quiet (pc : Word) (t : State) : Bool := t.pc == pc && t.cond == none && t.condLog == []

/-- T6.1, one pixel. -/
theorem test_cls : after 0x00 0xE0 (((given []).setScreen (Screen.blank.xorPixel (31, 63)).1))
    (fun t => quiet 0x202 t && t.clear && !t.redraw && !t.fb.pixel (31, 63)) = true := by decide

/-- T1.11. -/
theorem test_ret : after 0x00 0xEE (((given []).setStack
      ((Vector.replicate 16 0).set 0 0x0202 |>.set 1 0x0456) 2).setPc 0x300)
    (fun t => quiet 0x456 t && t.sp == 1 && t.stack[0] == 0x0202 && t.stack[1] == 0) = true := by decide

/-- T1.12 (S9). -/
theorem test_ret_underflow : after 0x00 0xEE (given [])
    (fun t => t.pc == 0x202 && t.sp == 0 && t.cond == some (.stackUnderflow 0x00EE 0x0202)) = true := by decide

/-- T1.3. -/
theorem test_jp : after 0x1F 0xFF (given []) (quiet 0xFFF) = true := by decide

/-- T1.7: the last free slot. -/
theorem test_call_last_slot : after 0x23 0x00 (((given []).setStack (Vector.replicate 16 0x0202) 15).setPc 0x250)
    (fun t => quiet 0x300 t && t.sp == 16 && t.stack[15] == 0x252 && t.stack[14] == 0x202) = true := by decide

/-- T1.8. -/
theorem test_call_overflow : after 0x23 0x00 (((given []).setStack (Vector.replicate 16 0x0202) 16).setPc 0x250)
    (fun t => t.pc == 0x300 && t.sp == 16 && t.stack[15] == 0x202 && t.cond == some (.stackOverflow 0x2300 0x0252)) =
      true := by decide

/-- T2.1, T2.2. -/
theorem test_seImm : after 0x33 0x2A (given [(3, 0x2A)]) (quiet 0x204) = true ∧
    after 0x33 0x2B (given [(3, 0x2A)]) (quiet 0x202) = true := by decide

/-- T2.3, T2.4. -/
theorem test_sneImm : after 0x43 0x2A (given [(3, 0x2A)]) (quiet 0x202) = true ∧
    after 0x43 0x2B (given [(3, 0x2A)]) (quiet 0x204) = true := by decide

/-- T2.5, T2.6. -/
theorem test_seReg : after 0x51 0x20 (given [(1, 7), (2, 7)]) (quiet 0x204) = true ∧
    after 0x51 0x20 (given [(1, 7), (2, 8)]) (quiet 0x202) = true := by decide

/-- T2.8: no skip. -/
theorem test_seReg_illegal : after 0x51 0x21 (given [(1, 7), (2, 7)])
    (fun t => t.pc == 0x202 && t.cond == some (.invalidOpcodeFormat 0x5121 0x0202)) = true := by decide

/-- T2.10, T2.11. -/
theorem test_sneReg : after 0x91 0x20 (given [(1, 7), (2, 8)]) (quiet 0x204) = true ∧
    after 0x91 0x20 (given [(1, 7), (2, 7)]) (quiet 0x202) = true := by decide

/-- T3.2. -/
theorem test_ldImm : after 0x6F 0xAB (given []) (fun t => quiet 0x202 t && t.v[15] == 0xAB && t.v[14] == 0) = true := by
  decide

/-- T3.4, and VF kept. -/
theorem test_addImm : after 0x70 0x01 (given [(0, 0xFF)])
    (fun t => quiet 0x202 t && t.v[0] == 0 && t.v[15] == 0) = true := by decide

/-- T3.9. -/
theorem test_ldI : after 0xAF 0xFF (given [] 0xFFFF) (fun t => quiet 0x202 t && t.i == 0x0FFF) = true := by decide

/-- T1.16: V0, not V3. -/
theorem test_jpV0 : after 0xB3 0x00 (given [(0, 4), (3, 0x77)]) (quiet 0x304) = true := by decide

/-- T3.11: the injected byte, masked, and used up. -/
theorem test_rnd : after 0xC3 0x0F ((given [(3, 0xEE)]).injectRandom [0xB7, 0x11])
    (fun t => quiet 0x202 t && t.v[3] == 0x07 && t.rndQueue == [0x11] && t.rndDraws == 0) = true := by decide

/-- T4.1. -/
theorem test_ldReg : after 0x81 0x20 (given [(1, 0x11), (2, 0x22), (15, 1)])
    (fun t => quiet 0x202 t && t.v[1] == 0x22 && t.v[2] == 0x22 && t.v[15] == 1) = true := by decide

/-- T4.2. -/
theorem test_orReg : after 0x81 0x21 (given [(1, 0xF0), (2, 0x0F), (15, 1)])
    (fun t => quiet 0x202 t && t.v[1] == 0xFF && t.v[15] == 1) = true := by decide

/-- T4.3. -/
theorem test_andReg : after 0x81 0x22 (given [(1, 0xF0), (2, 0x3C), (15, 1)])
    (fun t => quiet 0x202 t && t.v[1] == 0x30 && t.v[15] == 1) = true := by decide

/-- T4.4. -/
theorem test_xorReg : after 0x81 0x23 (given [(1, 0xF0), (2, 0x3C), (15, 1)])
    (fun t => quiet 0x202 t && t.v[1] == 0xCC && t.v[15] == 1) = true := by decide

/-- T4.7, T5.1. -/
theorem test_addReg : after 0x81 0x24 (given [(1, 0xFF), (2, 1)])
      (fun t => quiet 0x202 t && t.v[1] == 0 && t.v[15] == 1) = true ∧
    after 0x8F 0x14 (given [(15, 0xF0), (1, 0x20)]) (fun t => quiet 0x202 t && t.v[15] == 0x10) = true := by decide

/-- T4.11, T4.13. -/
theorem test_subReg : after 0x81 0x25 (given [(1, 5), (2, 10), (15, 1)])
      (fun t => quiet 0x202 t && t.v[1] == 0xFB && t.v[15] == 0) = true ∧
    after 0x81 0x25 (given [(1, 7), (2, 7)]) (fun t => quiet 0x202 t && t.v[1] == 0 && t.v[15] == 1) = true := by decide

/-- T4.21: V2 has no effect. -/
theorem test_shr : after 0x81 0x26 (given [(1, 4), (2, 0xFF), (15, 1)])
    (fun t => quiet 0x202 t && t.v[1] == 2 && t.v[2] == 0xFF && t.v[15] == 0) = true := by decide

/-- T4.17, T5.9. -/
theorem test_subnReg : after 0x81 0x27 (given [(1, 10), (2, 5), (15, 1)])
      (fun t => quiet 0x202 t && t.v[1] == 0xFB && t.v[15] == 0) = true ∧
    after 0x81 0xF7 (given [(1, 2), (15, 1)]) (fun t => quiet 0x202 t && t.v[1] == 0xFF && t.v[15] == 0) = true := by
  decide

/-- T4.24, T4.25. -/
theorem test_shl : after 0x81 0x0E (given [(1, 0x81)]) (fun t => quiet 0x202 t && t.v[1] == 2 && t.v[15] == 1) = true ∧
    after 0x81 0x2E (given [(1, 0x7F), (2, 0xFF), (15, 1)])
      (fun t => quiet 0x202 t && t.v[1] == 0xFE && t.v[15] == 0) = true := by decide

/-- T6.3: wrap on both axes. -/
theorem test_drw_wraps : after 0xD0 0x11 (holding 0x300 [0xF0] (given [(0, 62), (1, 31)] 0x300))
    (fun t => quiet 0x202 t && t.redraw && t.fb.pixel (31, 0) && t.fb.pixel (31, 1) && !t.fb.pixel (31, 2) &&
      t.fb.pixel (31, 62) && t.fb.pixel (31, 63) && !t.fb.pixel (0, 62)) = true := by decide

/-- T6.6: one pixel on, one off, a collision. -/
theorem test_drw_collides : after 0xD0 0x11
      ((holding 0x300 [0xC0] (given [] 0x300)).setScreen (Screen.blank.xorPixel (0, 1)).1)
    (fun t => quiet 0x202 t && t.v[15] == 1 && t.redraw && t.fb.pixel (0, 0) && !t.fb.pixel (0, 1)) = true := by decide

/-- T2.14, T2.18. -/
theorem test_skp : after 0xE4 0x9E ((given [(4, 10)]).keyWrite 10 true) (quiet 0x204) = true ∧
    after 0xE4 0x9E ((given [(4, 16)]).keyWrite 0 true)
      (fun t => t.pc == 0x202 && t.cond == some (.addressOutOfRange 0xE49E 0x0202)) = true := by decide

/-- T2.16, T2.17. -/
theorem test_sknp : after 0xE4 0xA1 (given [(4, 10)]) (quiet 0x204) = true ∧
    after 0xE4 0xA1 ((given [(4, 10)]).keyWrite 10 true) (quiet 0x202) = true := by decide

/-- T7.1. -/
theorem test_ldVxDT : after 0xF2 0x07 ((given [(2, 0x99)]).setDT 0x3C)
    (fun t => quiet 0x202 t && t.v[2] == 0x3C && t.dt == 0x3C) = true := by decide

/-- T7.2. -/
theorem test_ldDTVx : after 0xF2 0x15 (given [(2, 0x3C)]) (fun t => quiet 0x202 t && t.dt == 0x3C) = true := by decide

/-- T7.5, T7.6. -/
theorem test_addI : after 0xF1 0x1E (given [(1, 1)] 0x0FFF) (fun t => quiet 0x202 t && t.i == 0x1000) = true ∧
    after 0xF1 0x1E (given [(1, 1)] 0xFFFF) (fun t => quiet 0x202 t && t.i == 0 && t.v[15] == 0) = true := by decide

/-- T7.8. -/
theorem test_ldF : after 0xF3 0x29 (given [(3, 0xFF)]) (fun t => quiet 0x202 t && t.i == 0x04FB) = true := by decide

/-- T7.15 at the top of memory, T7.16 one further. -/
theorem test_ldB : after 0xF0 0x33 (given [(0, 0x7B)] 0x0FFD)
      (fun t => quiet 0x202 t && t.i == 0x0FFD &&
        t.mem == [(0x200, 0xF0), (0x201, 0x33), (0xFFD, 1), (0xFFE, 2), (0xFFF, 3)]) = true ∧
    after 0xF0 0x33 (given [(0, 0x7B)] 0x0FFE)
      (fun t => t.pc == 0x202 && t.mem == [(0x200, 0xF0), (0x201, 0x33)] &&
        t.cond == some (.addressOutOfRange 0xF033 0x0202)) = true := by decide

/-- T7.18. -/
theorem test_storeRegs : after 0xF2 0x55 (given [(0, 0xAA), (1, 0xBB), (2, 0xCC), (3, 0xDD)] 0x300)
    (fun t => quiet 0x202 t && t.i == 0x300 &&
      t.mem == [(0x200, 0xF2), (0x201, 0x55), (0x300, 0xAA), (0x301, 0xBB), (0x302, 0xCC)]) = true := by decide

/-- T7.23. -/
theorem test_loadRegs : after 0xF2 0x65 (holding 0x300 [1, 2, 3, 4] (given [(3, 0x77)] 0x300))
    (fun t => quiet 0x202 t && t.v[0] == 1 && t.v[1] == 2 && t.v[2] == 3 && t.v[3] == 0x77 && t.i == 0x300) = true := by
  decide

/-- T8.1. -/
theorem test_unknown_word : after 0x00 0x00 (given [])
    (fun t => t.pc == 0x202 && t.cond == some (.unknownOpcode 0x0000 0x0202) && t.condCode == 1) = true := by decide

/-- T1.4: nothing changes but the report. -/
theorem test_fetch_out_of_range :
    step ((given []).setPc 0xFFF) = .next (((given []).setPc 0xFFF).report (.fetchOutOfRange 0xFFF)) := by rfl

/-- T8.20: an odd `pc` is no error. -/
theorem test_odd_pc : after 0x61 0x05 ((given []).setPc 0x201) (fun t => quiet 0x203 t && t.v[1] == 5) = true := by decide

/-- A report is in the record after a quiet step, and is no longer the output (U1). -/
theorem test_report_is_kept : after 0x60 0x05 ((given []).report (.unknownOpcode 0 0x0202))
    (fun t => t.cond == none && t.condLog == [.unknownOpcode 0 0x0202]) = true := by decide

/-- `withFetchWord` from reset: the very next step runs the word (T3.8), a word with a zero byte included. -/
theorem test_withFetchWord : ((State.reset.withFetchWord 16 0xA200).fetch = some 0xA200#16) ∧
    (match step (State.reset.withFetchWord 16 0xA200) with | .next t => quiet 0x202 t && t.i == 0x200 | _ => false) =
      true := by decide

/-- `withFetchWord` where the word does not fit at `pc`: the step runs it at the entry point. -/
theorem test_withFetchWord_at_the_end :
    (match step (((given []).setPc 0xFFF).withFetchWord 16 0x6005) with | .next t => quiet 0x202 t && t.v[0] == 5 | _ => false) =
      true := by decide

/-! ## The host -/

/-- T9.1, T9.3. -/
theorem test_timerTick : ((given []).setDT 3).timerTick.dt = 2 ∧ (given []).timerTick.dt = 0 := by decide

/-- T9.6. -/
theorem test_keyWrite : ((((given []).keyWrite 5 true).keyWrite 7 true).keyWrite 5 false).key[5] = false ∧
    ((((given []).keyWrite 5 true).keyWrite 7 true).keyWrite 5 false).key[7] = true := by decide

/-- T9.8. -/
theorem test_signalReadClear : (given []).raiseRedraw.signalReadClear.1 = (true, false) ∧
    (given []).raiseRedraw.signalReadClear.2.redraw = false := by decide

/-- T9.12. -/
theorem test_load : (match (given []).load [0x60, 0x05, 0x70, 0x0A] with
      | .ok t            => t.mem == [(0x200, 0x60), (0x201, 0x05), (0x202, 0x70), (0x203, 0x0A)]
      | .imageTooLarge _ => false) = true := by decide

/-- T9.17: the loaded program is gone too. -/
theorem test_hostReset : (holding 0x200 [0x12, 0x00] ((given [(0, 0xFF)] 0xFFF).setPc 0xFFF)).hostReset = State.reset := by
  rfl

/-- T9.18, one register. -/
theorem test_inspect : (given [(3, 0x2A)]).inspect (.register 3) = 0x2A := by decide

/-- A step that is given a byte uses that byte (R201), and the injected ones stay. -/
theorem test_stepWith : (match stepWith 0xA5 (holding 0x200 [0xCF, 0xF0] ((given []).injectRandom [0x01])) with
      | .next t => quiet 0x202 t && t.v[15] == 0xA0 && t.rndQueue == [0x01]
      | _       => false) = true := by decide

/-! ## Witnesses: states and operands that meet the hypotheses of each obligation, at the ends of their ranges -/

/-- Every `DecodesAs`: each row is selected by a word, its pattern. -/
theorem test_witness_rows : (opcodeRows.all fun r => r.selects r.pattern) = true := by decide

/-- DecodeThenEncodeGivesWord. -/
theorem test_witness_decoded : decode 0xFF65 = .instr (.loadRegs 15) := by decide

/-- DecodeAgreesWithOpcodeMap, both parts. -/
theorem test_witness_selected : (Instr.shl 0 0).row ∈ opcodeRows ∧ (Instr.shl 0 0).row.selects 0x8FFE = true := by decide

/-- StepRunsDecodedInstruction, at the last `pc` that fetches. -/
theorem test_witness_step_runs :
    let s := holding 0xFFE [0x60, 0x05] ((given []).setPc 0xFFE)
    s.pc.toNat ≤ 4094 ∧ decode (s.mem.byteAt s.pc.toNat ++ s.mem.byteAt (s.pc.toNat + 1)) = .instr (.ldImm 0 5) := by
  decide

/-- MemReadChecksRangeAndIsBigEndian, each clause at its end. -/
theorem test_witness_memRead : (4095 ≤ 4095 ∧ (given []).memRead1 4095 = some 0) ∧ (4095 < 4096 ∧ (given []).memRead1 4096 = none) ∧
    (4094 + 1 ≤ 4095 ∧ (holding 4094 [0x12, 0x34] (given [])).memRead2 4094 = some 0x1234) ∧
    (4095 < 4095 + 1 ∧ (given []).memRead2 4095 = none) := by decide

/-- MemWriteChangesOneByte: out of range, in range, and each byte of the next fetch. -/
theorem test_witness_memWrite : (4095 < 4096 ∧ ((given []).storeBytes 4096 [7]).isNone = true) ∧
    (((given []).storeBytes 4095 [7]).map fun t => t.mem) = some [(4095, 7)] ∧
    (((given []).setPc 4094).pc.toNat = 4094 ∧ 4094 + 1 ≤ 4095) ∧ ((given []).setPc 4094).pc.toNat + 1 = 4095 := by decide

/-- UnknownWordOnlyReports. -/
theorem test_witness_unknown :
    let s := given []
    s.pc.toNat ≤ 4094 ∧ 0x0000#16 = s.mem.byteAt s.pc.toNat ++ s.mem.byteAt (s.pc.toNat + 1) ∧
      decode 0x0000#16 = .unknownOpcode := by decide

/-- InvalidFormatWordOnlyReports, and the last clause of SeRegSkipsOnEqual. -/
theorem test_witness_invalid :
    let s := holding 0x200 [0x51, 0x21] (given [])
    s.pc.toNat ≤ 4094 ∧ 0x5121#16 = s.mem.byteAt s.pc.toNat ++ s.mem.byteAt (s.pc.toNat + 1) ∧
      decode 0x5121#16 = .invalidOpcodeFormat := by decide

/-- SeRegSkipsOnEqual and SneRegSkipsOnDifferent: words of their families that are not the instruction. -/
theorem test_witness_not_skips : (0x5121#16 &&& 0xF000 = 0x5000 ∧ 0x5121#16 &&& 0x000F ≠ 0) ∧
    (0x912F#16 &&& 0xF000 = 0x9000 ∧ 0x912F#16 &&& 0x000F ≠ 0) := by decide

/-- FetchOutOfRangeStaysPut. -/
theorem test_witness_fetch : 4094 < ((given []).setPc 0xFFF).pc.toNat := by decide

/-- A state whose stack pointer is `d`. -/
def deep (d : BitVec 5) : State := (given []).setStack (Vector.replicate 16 0x0202) d

/-- StackPushesAndPops, CallPushesAndJumps, RetPopsOrReportsUnderflow: the ends of every range of `SP`. -/
theorem test_witness_depths : 16 ≤ (deep 16).sp.toNat ∧ (deep 15).sp.toNat < 16 ∧ (deep 0).sp.toNat < 16 ∧
    (deep 0).sp.toNat = 0 ∧ (deep 1).sp.toNat = (0 : Fin 16).val + 1 ∧ (deep 16).sp.toNat = (15 : Fin 16).val + 1 ∧
    (deep 14).sp.toNat + 2 ≤ 16 := by decide

/-- RetBeyondTheSlotsFaults. -/
theorem test_witness_beyond : 16 < (deep 17).sp.toNat ∧ 16 < (deep 31).sp.toNat := by decide

/-- KeySkipsReadTheKeyArray: the last key, and the first index that is none. -/
theorem test_witness_keys : (given [(4, 15)]).v[(4 : Reg)].toNat = (15 : Fin 16).val ∧
    (15 < (given [(4, 16)]).v[(4 : Reg)].toNat ∧ Instr.sknp 4 ∈ [Instr.skp 4, Instr.sknp 4]) := by decide

/-- RndMasksTheSuppliedByte: with and without an injected byte. -/
theorem test_witness_rnd : ((given []).injectRandom [0xB7]).rndQueue = [0xB7] ∧ (given []).rndQueue = [] := by decide

/-- OnlyRndLearnsTheRandomByte. -/
theorem test_witness_not_rnd : ∀ (x : Reg) (kk : Byte),
    (holding 0x200 [0x60, 0x05] (given [])).fetch.map decode ≠ some (.instr (.rnd x kk)) := by
  intro x kk h
  have e : (holding 0x200 [0x60, 0x05] (given [])).fetch.map decode = some (.instr (.ldImm 0 5)) := by decide
  rw [e] at h
  simp at h

/-- AluComputesTheTable and the flag statements: a destination that is not VF. -/
theorem test_witness_not_vf : (14 : Reg) ≠ vf ∧ (0 : Reg) ≠ vf := by decide

/-- DrwInvertsTheCoveredCells: no row with `I` past memory, one row at the last byte, fifteen rows up to it. -/
theorem test_witness_drw_ranges : ((0x0 : Nibble).toNat = 0 ∧ (given [] 0xFFFF).i.toNat = 0xFFFF) ∧
    (given [] 0xFFF).i.toNat + (0x1 : Nibble).toNat - 1 ≤ 4095 ∧
    (given [] 0xFF1).i.toNat + (0xF : Nibble).toNat - 1 ≤ 4095 := by decide

/-- A state with a sprite byte 0x80 at 0x300 and one pixel on. -/
def sprite (p : Cell) : State := (holding 0x300 [0x80] (given [] 0x300)).setScreen (Screen.blank.xorPixel p).1

/-- DrwInvertsTheCoveredCells: a covered cell, and it is on. -/
theorem test_witness_covered : Covers (sprite (0, 0)) 0 0 1 (0, 0) ∧ (sprite (0, 0)).fb.pixel (0, 0) = true := by
  refine ⟨⟨0, 0, ?_⟩, ?_⟩ <;> decide

/-- DrwInvertsTheCoveredCells: a cell that is not covered; and with no row there is no covered cell that is on. -/
theorem test_witness_not_covered : ¬ Covers (sprite (0, 0)) 0 0 1 (1, 0) ∧
    ¬ ∃ p, Covers (sprite (0, 0)) 0 0 0 p ∧ (sprite (0, 0)).fb.pixel p = true := by
  refine ⟨?_, ?_⟩
  · rintro ⟨r, c, hr, hc, h1, -⟩
    simp at h1
    omega
  · rintro ⟨p, ⟨r, c, hr, -⟩, -⟩
    omega

/-- DoubleDrawRestoresTheScreen: the second draw from the state the first one left, with registers other than VF. -/
theorem test_witness_double_draw : (sprite (5, 5)).i.toNat + (0x1 : Nibble).toNat - 1 ≤ 4095 ∧
    ∃ t, exec (.drw 0 1 1) (sprite (5, 5)) = .next t ∧ t.fb = t.fb ∧
    t.i = (sprite (5, 5)).i ∧ (∀ r, r < (0x1 : Nibble).toNat →
      t.mem.byteAt ((sprite (5, 5)).i.toNat + r) = (sprite (5, 5)).mem.byteAt ((sprite (5, 5)).i.toNat + r)) ∧
    t.v[(0 : Reg)].toNat % 64 = (sprite (5, 5)).v[(0 : Reg)].toNat % 64 ∧
    t.v[(1 : Reg)].toNat % 32 = (sprite (5, 5)).v[(1 : Reg)].toNat % 32 :=
  ⟨by decide, _, rfl, rfl, rfl, fun _ _ => rfl, by decide, by decide⟩

/-- OutOfRangeAccessOnlyReports: the first value of `I` out of range, for each instruction at its widest and `Fx65` at
its narrowest. -/
theorem test_witness_out_of_range :
    (1 ≤ (0xF : Nibble).toNat ∧ 4095 < (given [] 0xFF2).i.toNat + (0xF : Nibble).toNat - 1) ∧
    4095 < (given [] 0xFFE).i.toNat + 2 ∧ 4095 < (given [] 0xFF1).i.toNat + (15 : Reg).val ∧
    4095 < (given [] 0x1000).i.toNat + (0 : Reg).val := by decide

/-- LdBStoresThreeDigits, StoreRegsStoresTheBlock, LoadRegsLoadsTheBlock, StoreThenLoadRestoresTheBlock: the last value
of `I` in range; a register of the block and one above it. -/
theorem test_witness_in_range : (given [] 0xFFD).i.toNat + 2 ≤ 4095 ∧ (given [] 0xFF0).i.toNat + (15 : Reg).val ≤ 4095 ∧
    (given [] 0xFFF).i.toNat + (0 : Reg).val ≤ 4095 ∧ (15 : Reg) ≤ 15 ∧ (0 : Reg) < 1 := by decide

/-- StoreThenLoadRestoresTheBlock: the load from the state the store left. -/
theorem test_witness_store_then_load : (given [(0, 7)] 0x300).i.toNat + (1 : Reg).val ≤ 4095 ∧
    ∃ t, exec (.storeRegs 1) (given [(0, 7)] 0x300) = .next t ∧ t.mem = t.mem ∧ t.i = (given [(0, 7)] 0x300).i :=
  ⟨by decide, _, rfl, rfl, rfl⟩

/-- StoredBytesAreFetched for `Fx55`: a fetch that ends in the first stored byte, one of the last two bytes of memory,
and one at the last stored byte when that is the last address that fetches. -/
theorem test_witness_fetch_after_storeRegs :
    ((given [] 0x300).i.toNat + (2 : Reg).val ≤ 4095 ∧ ∃ t, exec (.storeRegs 2) (given [] 0x300) = .next t ∧
      (t.setPc 0x2FF).mem = t.mem ∧ (t.setPc 0x2FF).pc.toNat + 1 = (given [] 0x300).indexed 0) ∧
    ((given [] 0xFF0).i.toNat + (15 : Reg).val ≤ 4095 ∧ (15 : Reg) ≤ 15 ∧ (15 : Reg).val = (14 : Reg).val + 1 ∧
      ∃ t, exec (.storeRegs 15) (given [] 0xFF0) = .next t ∧
        (t.setPc 0xFFE).mem = t.mem ∧ (t.setPc 0xFFE).pc.toNat = (given [] 0xFF0).indexed (14 : Reg).val) ∧
    ((given [] 0xFFE).i.toNat + (0 : Reg).val ≤ 4095 ∧ ∃ t, exec (.storeRegs 0) (given [] 0xFFE) = .next t ∧
      (t.setPc 0xFFE).mem = t.mem ∧ (t.setPc 0xFFE).pc.toNat = (given [] 0xFFE).indexed (0 : Reg).val ∧
      (t.setPc 0xFFE).pc.toNat ≤ 4094) :=
  ⟨⟨by decide, _, rfl, rfl, by decide⟩, ⟨by decide, by decide, by decide, _, rfl, rfl, by decide⟩,
    ⟨by decide, _, rfl, rfl, by decide, by decide⟩⟩

/-- StoredBytesAreFetched for `Fx33`: the four places of the fetch, at the top of memory. -/
theorem test_witness_fetch_after_ldB :
    ((given [] 0xFFD).i.toNat + 2 ≤ 4095 ∧ ∃ t, exec (.ldB 0) (given [] 0xFFD) = .next t ∧
      (t.setPc 0xFFC).mem = t.mem ∧ (t.setPc 0xFFC).pc.toNat + 1 = (given [] 0xFFD).indexed 0 ∧
      (t.setPc 0xFFD).pc.toNat = (given [] 0xFFD).indexed 0 ∧ (t.setPc 0xFFE).pc.toNat = (given [] 0xFFD).indexed 1) ∧
    ((given [] 0xFFC).i.toNat + 2 ≤ 4095 ∧ ∃ t, exec (.ldB 0) (given [] 0xFFC) = .next t ∧
      (t.setPc 0xFFE).mem = t.mem ∧ (t.setPc 0xFFE).pc.toNat = (given [] 0xFFC).indexed 2 ∧
      (t.setPc 0xFFE).pc.toNat ≤ 4094) :=
  ⟨⟨by decide, _, rfl, rfl, by decide, by decide, by decide⟩, ⟨by decide, _, rfl, rfl, by decide, by decide⟩⟩

/-- ConditionCodesFollowTheTable: a state with a condition output and one without. -/
theorem test_witness_cond : (given []).cond = none ∧
    ((given []).report (.unknownOpcode 0 0x0202)).cond = some (.unknownOpcode 0 0x0202) := by decide

/-- EveryInstructionKeepsItsFrame, AtMostOneReportPerStep: an instruction and a step that answer a next state. -/
theorem test_witness_next : (∃ t, exec (.addReg 1 2) (given []) = .next t) ∧ (∃ t, step (given []) = .next t) :=
  ⟨⟨_, rfl⟩, ⟨_, rfl⟩⟩

/-- EveryStepAnswersANextState: the deepest legal stack. -/
theorem test_witness_depth_legal : StackDepthLegal (deep 16) := by
  unfold StackDepthLegal
  decide

/-- A state inside a subroutine: one return address, and a `RET` at `pc`. -/
def inSubroutine : State :=
  holding 0x300 [0x00, 0xEE] (((given []).setStack ((Vector.replicate 16 0).set 0 0x0202) 1).setPc 0x300)

/-- StepKeepsTheInvariant, HostOperationsKeepTheInvariant: a state with the invariant, and its next step. -/
theorem test_witness_invariant : Inv inSubroutine ∧ (∃ t, step inSubroutine = .next t) ∧
    ∃ t, stepWith 0xB7 inSubroutine = .next t := by
  refine ⟨⟨by decide, ?_, by decide, by decide, by decide⟩, ⟨_, rfl⟩, ⟨_, rfl⟩⟩
  unfold StackDepthLegal
  decide

/-- ReachableStatesMeetTheInvariant: the state after a load and a step. -/
theorem test_witness_reachable : ∃ t, step (HostOp.apply (.load [0x60, 0x05]) State.reset) = .next t ∧ Reachable t :=
  ⟨_, rfl, .step _ _ (.host (.load [0x60, 0x05]) _ .reset) rfl⟩

/-- SelfJumpChangesNoState: at the entry point, and at the last address that fetches. -/
theorem test_witness_end_of_run : AtEndOfRun (holding 0x200 [0x12, 0x00] (given [])) ∧
    AtEndOfRun (holding 0xFFE [0x1F, 0xFE] ((given []).setPc 0xFFE)) := by
  unfold AtEndOfRun
  decide

/-- KeyWriteAndSignalReadClear: another key. -/
theorem test_witness_other_key : (7 : Fin 16) ≠ 5 := by decide

/-- LoadCopiesTheImageOrNothing: the longest image that fits and the shortest that does not. -/
theorem test_witness_images : (List.replicate 3584 (0xAB : Byte)).length ≤ 3584 ∧
    3584 < (List.replicate 3585 (0xAB : Byte)).length := by
  rw [List.length_replicate, List.length_replicate]
  decide

end Sys2Proof.Tests
end

/-! # The frame of every instruction (10_state.md R10, R21, R29; 44_misc_memory.md R168)

The frame of each named update is a law of Laws/Frame.lean. Here stand the frames of the call stack's two operations and
of the instructions whose meaning branches; `frame_exec` puts the cases together, one a group of instructions. -/

namespace Sys2Proof.Machine

/-- The frame of an update is the frame of a meaning that answers it. -/
theorem SameExcept.ofNext {r : List Reg} {m : List Nat} {p : List Part} {s t u : State} (frame : SameExcept r m p s u)
    (h : (.next u : Result) = .next t) : SameExcept r m p s t := by
  cases h
  exact frame

/-- `SameExcept.mono` for lists written out, where `simp` sees the inclusions. -/
theorem SameExcept.within {r r' : List Reg} {m m' : List Nat} {p p' : List Part} {s t : State}
    (frame : SameExcept r m p s t) (hr : r ⊆ r' := by simp) (hm : m ⊆ m' := by simp) (hp : p ⊆ p' := by simp) :
    SameExcept r' m' p' s t :=
  frame.mono hr hm hp

section
variable {s t : State}

/-! ## The call stack -/

theorem frame_push {a : Word} (h : s.push a = some t) : SameExcept [] [] [.stack] s t := by
  rw [State.push_eq] at h
  split at h
  · cases h
  · cases h
    exact frame_setStack s _ _

theorem frame_pop {a : Word} (h : s.pop = .word a t) : SameExcept [] [] [.stack] s t := by
  obtain empty | ⟨lo, hi⟩ | beyond : s.sp.toNat = 0 ∨ (0 < s.sp.toNat ∧ s.sp.toNat ≤ 16) ∨ 16 < s.sp.toNat := by omega
  · rw [State.pop_empty empty] at h
    cases h
  · rw [State.pop_word lo hi] at h
    cases h
    exact frame_setStack s _ _
  · rw [State.pop_absent beyond] at h
    cases h

/-! ## The instructions whose meaning branches -/

/-- R103, R106, R185: a popped address moves `pc` and the stack, an empty stack only reports. -/
theorem frame_execRet (h : execRet s = .next t) : SameExcept [] [] [.pc, .stack, .reports] s t := by
  unfold execRet at h
  split at h
  · exact ((frame_report s _).ofNext h).within
  · cases h
  · next popped => exact (((frame_pop popped).trans (frame_setPc _ _)).ofNext h).within

/-- R102, R105, R184: `pc` moves in both cases; the push changes the stack, a full stack is reported. -/
theorem frame_execCall {nnn : Addr} (h : execCall nnn s = .next t) :
    SameExcept [] [] [.pc, .stack, .reports] s t := by
  unfold execCall at h
  split at h
  · exact (((frame_report s _).trans (frame_setPc _ _)).ofNext h).within
  · next pushed => exact (((frame_push pushed).trans (frame_setPc _ _)).ofNext h).within

/-- R112. -/
theorem frame_execSkp {x : Reg} (h : execSkp x s = .next t) : SameExcept [] [] [.pc, .reports] s t := by
  unfold execSkp at h
  split at h
  · exact (frame_outOfRange h).within
  · exact ((frame_skipIf s _).ofNext h).within

/-- R113. -/
theorem frame_execSknp {x : Reg} (h : execSknp x s = .next t) : SameExcept [] [] [.pc, .reports] s t := by
  unfold execSknp at h
  split at h
  · exact (frame_outOfRange h).within
  · exact ((frame_skipIf s _).ofNext h).within

/-- R152, R65. -/
theorem frame_execDrw {x y : Reg} {n : Nibble} (h : execDrw x y n s = .next t) :
    SameExcept [vf] [] [.screen, .redraw, .reports] s t := by
  rw [execDrw_eq] at h
  split at h
  · exact ((((frame_writeV s vf _).trans (frame_setScreen _ _)).trans (frame_raiseRedraw _)).ofNext h).within
  · exact (frame_outOfRange h).within

/-- R165, R65: the three digits are the bytes stored. -/
theorem frame_execLdB {x : Reg} (h : execLdB x s = .next t) : SameExcept [] (s.indexedRange 3) [.reports] s t := by
  rw [execLdB_eq] at h
  split at h
  · exact ((frame_putAll s _ (bcd (s.readV x))).ofNext h).within (hm := List.Subset.refl _)
  · exact (frame_outOfRange h).within

/-- R166, R65: the block of registers is the bytes stored. -/
theorem frame_execStoreRegs {x : Reg} (h : execStoreRegs x s = .next t) :
    SameExcept [] (s.indexedRange (blockLength x)) [.reports] s t := by
  rw [execStoreRegs_eq] at h
  split at h
  · have frame := frame_putAll s (s.indexed 0) (s.block x)
    rw [State.block_length] at frame
    exact (frame.ofNext h).within (hm := List.Subset.refl _)
  · exact (frame_outOfRange h).within

/-- R167, R65: the registers of the block are the ones loaded. -/
theorem frame_execLoadRegs {x : Reg} (h : execLoadRegs x s = .next t) :
    SameExcept ((List.finRange 16).take (blockLength x)) [] [.reports] s t := by
  rw [execLoadRegs_eq] at h
  split at h
  · exact ((frame_writeBlock s _ x (by simp)).ofNext h).within
  · exact (frame_outOfRange h).within

end

/-! ## All instructions -/

/-- R10: a next state of an instruction differs only in what the rules name for it. -/
theorem frame_exec {i : Instr} {s t : State} (h : exec i s = .next t) :
    SameExcept (writtenRegs i) (storedAddrs s i) (writtenParts i) s t := by
  cases i with
  | cls => exact ((frame_setScreen s _).trans (frame_raiseClear _)).ofNext h
  | ret => exact frame_execRet h
  | call nnn => exact frame_execCall h
  | jp _ | jpV0 _ => exact (frame_setPc s _).ofNext h
  | seImm _ _ | sneImm _ _ | seReg _ _ | sneReg _ _ => exact (frame_skipIf s _).ofNext h
  | skp x => exact frame_execSkp h
  | sknp x => exact frame_execSknp h
  | ldImm x _ | addImm x _ | ldVxDT x => exact (frame_writeV s x _).ofNext h
  | ldReg x _ | orReg x _ | andReg x _ | xorReg x _ => exact (frame_writeAlu_none s x _).ofNext h
  | addReg x _ | subReg x _ | shr x _ | subnReg x _ | shl x _ => exact (frame_writeAlu s x _).ofNext h
  | ldI _ | addI _ | ldF _ => exact (frame_setI s _).ofNext h
  | rnd x _ => exact ((frame_advanceRnd s).trans (frame_writeV _ x _)).ofNext h
  | drw x y n => exact frame_execDrw h
  | ldDTVx _ => exact (frame_setDT s _).ofNext h
  | ldB x => exact frame_execLdB h
  | storeRegs x => exact frame_execStoreRegs h
  | loadRegs x => exact frame_execLoadRegs h

/-- Settles O47, by cases on the instruction. -/
theorem everyInstructionKeepsItsFrame : Obligations.EveryInstructionKeepsItsFrame :=
  fun _ _ _ h => frame_exec h

end Sys2Proof.Machine

/-! # The invariant of every run (10_state.md R34, R33, R35, R103)

`Inv` reads memory, the call stack, `SP` and `pc` only. Each update of one of these has its rule here, and an update of
anything else keeps `Inv` by `Inv.ofSame`. `exec_keeps_inv` puts the instructions together, `step_keeps_inv` the step. -/

namespace Sys2Proof.Machine

/-! ## The operations on the call stack and Load, as far as the invariant needs them -/

/-- A push with room counts the depth up; the 5 bits do not overflow (R102). -/
theorem depth_succ_toNat {d : BitVec 5} (room : d.toNat < 16) : (d + 1).toNat = d.toNat + 1 := by
  bv_omega

/-- A pop of a stack that is not empty counts the depth down (R103). -/
theorem depth_pred_toNat {d : BitVec 5} (nonempty : 0 < d.toNat) : (d - 1).toNat = d.toNat - 1 := by
  bv_omega

/-- Load in one equation (R211): an image that fits is copied to 0x200 upward. -/
theorem State.load_eq (s : State) (image : List Byte) :
    s.load image =
      if image.length ≤ 3584 then .ok (s.setMem (s.mem.putAll Config.loadBase image))
      else .imageTooLarge image.length := by
  simp [State.load, wellFormedImage]

/-- A step that is given a byte is a step with the byte injected; the queue of before is put back (R201). -/
theorem stepWith_cases {r : Byte} {s t : State} (h : stepWith r s = .next t) :
    ∃ u, step (s.injectRandom [r]) = .next u ∧ t = u.injectRandom s.rndQueue := by
  unfold stepWith at h
  split at h
  · next u stepped =>
    cases h
    exact ⟨u, stepped, rfl⟩
  · cases h
  · cases h

/-! ## The rule of each update -/

section
variable {s t : State}

/-- A state with the same stack and a canonical memory needs only the bound on its `pc`. -/
theorem Inv.ofStack (inv : Inv s) (stack : t.stack = s.stack) (sp : t.sp = s.sp) (memory : t.mem.wf = true)
    (pcBound : t.pc.toNat ≤ 0x10FE) : Inv t where
  memory := memory
  depth := by
    have legal := inv.depth
    unfold StackDepthLegal at legal ⊢
    rwa [sp]
  vacant := by
    rw [stack, sp]
    exact inv.vacant
  entries := by
    rw [stack, sp]
    exact inv.entries
  pcBound := pcBound

/-- An update of none of the pieces that `Inv` reads keeps it. -/
theorem Inv.ofSame (inv : Inv s) (stack : t.stack = s.stack := by simp) (sp : t.sp = s.sp := by simp)
    (mem : t.mem = s.mem := by simp) (pc : t.pc = s.pc := by simp) : Inv t :=
  inv.ofStack stack sp (mem ▸ inv.memory) (pc ▸ inv.pcBound)

theorem Inv.setPc (inv : Inv s) {w : Word} (bound : w.toNat ≤ 0x10FE) : Inv (s.setPc w) :=
  inv.ofStack (by simp) (by simp) inv.memory bound

/-- Stores inside the array keep the canonical form. -/
theorem Inv.putAll (inv : Inv s) {a : Nat} {bytes : List Byte} (fits : a + bytes.length ≤ 4096) :
    Inv (s.setMem (s.mem.putAll a bytes)) :=
  inv.ofStack (by simp) (by simp) (Memory.wf_putAll inv.memory ((inRange_iff ..).mpr (.inr fits))) inv.pcBound

/-- A skip goes 2 beyond the advanced `pc`, so at most to 4098. -/
theorem Inv.skipIf (inv : Inv s) (c : Bool) (bound : s.pc.toNat ≤ 4096) : Inv (s.skipIf c) := by
  cases c
  · exact inv
  · have skipped : (s.pc + 2).toNat ≤ 0x10FE := by bv_omega
    exact inv.setPc skipped

/-- R34 (b), (d), R102: the pushed address is the new top entry, and the slots from the new depth on were vacant before. -/
theorem Inv.push (inv : Inv s) {a : Word} (lo : 2 ≤ a.toNat) (hi : a.toNat ≤ 4096) (pushed : s.push a = some t) :
    Inv t := by
  rw [State.push_eq] at pushed
  split at pushed
  · cases pushed
  next room =>
  cases pushed
  have deeper := depth_succ_toNat (d := s.sp) (by omega)
  refine ⟨inv.memory, ?_, fun k hk => ?_, fun k hk => ?_, inv.pcBound⟩
  · simp only [StackDepthLegal, State.setStack_sp, deeper, Config.stackDepth]
    omega
  · rw [State.setStack_sp, deeper] at hk
    have vacant := inv.vacant k (by omega)
    have other : s.sp.toNat ≠ k.val := by omega
    simpa [Vector.getElem_setIfInBounds, other] using vacant
  · rw [State.setStack_sp, deeper] at hk
    by_cases top : s.sp.toNat = k.val
    · simpa [top] using ⟨lo, hi⟩
    · have entry := inv.entries k (by omega)
      simpa [Vector.getElem_setIfInBounds, top] using entry

/-- R34 (b), (d), R103: the popped address was an entry, and the vacated slot is zeroed. -/
theorem Inv.pop (inv : Inv s) {a : Word} (popped : s.pop = .word a t) : Inv t ∧ a.toNat ≤ 4096 := by
  have legal : s.sp.toNat ≤ 16 := inv.depth
  obtain empty | nonempty := Nat.eq_zero_or_pos s.sp.toNat
  · rw [State.pop_empty empty] at popped
    cases popped
  rw [State.pop_word nonempty legal] at popped
  cases popped
  have shallower := depth_pred_toNat nonempty
  refine ⟨⟨inv.memory, ?_, fun k hk => ?_, fun k hk => ?_, inv.pcBound⟩, ?_⟩
  · simp only [StackDepthLegal, State.setStack_sp, shallower, Config.stackDepth]
    omega
  · rw [State.setStack_sp, shallower] at hk
    by_cases vacated : s.sp.toNat - 1 = k.val
    · simp [vacated]
    · have vacant := inv.vacant k (by omega)
      simpa [Vector.getElem_setIfInBounds, vacated] using vacant
  · rw [State.setStack_sp, shallower] at hk
    have entry := inv.entries k (by omega)
    have other : s.sp.toNat - 1 ≠ k.val := by omega
    simpa [Vector.getElem_setIfInBounds, other] using entry
  · exact (inv.entries ⟨s.sp.toNat - 1, by omega⟩ (Nat.sub_lt nonempty Nat.one_pos)).2

/-! ## The instructions -/

/-- The invariant of an update is that of a meaning that answers it. -/
theorem Inv.ofNext {u : State} (h : (.next u : Result) = .next t) (inv : Inv u) : Inv t := by
  cases h
  exact inv

theorem Inv.outOfRange (inv : Inv s) {i : Instr} (h : outOfRange i s = .next t) : Inv t :=
  Inv.ofNext h inv.ofSame

/-- A 12-bit target is inside the array. -/
theorem zextAddr_le (nnn : Addr) : (zextAddr nnn).toNat ≤ 0x10FE := by
  bv_omega

/-- R111: the largest target of `Bnnn`, 0xFFF + 0xFF, is the bound of R34 (e). -/
theorem State.offsetTarget_le (nnn : Addr) : (s.offsetTarget nnn).toNat ≤ 0x10FE := by
  unfold State.offsetTarget
  bv_omega

theorem execRet_keeps_inv (inv : Inv s) (h : execRet s = .next t) : Inv t := by
  unfold execRet at h
  split at h
  · exact Inv.ofNext h inv.ofSame
  · cases h
  · next popped =>
    obtain ⟨kept, entry⟩ := inv.pop popped
    exact Inv.ofNext h (kept.setPc (by omega))

/-- R105, R184: the address pushed is the advanced `pc`. -/
theorem execCall_keeps_inv {nnn : Addr} (inv : Inv s) (lo : 2 ≤ s.pc.toNat) (hi : s.pc.toNat ≤ 4096)
    (h : execCall nnn s = .next t) : Inv t := by
  unfold execCall at h
  split at h
  · have reported : Inv (s.report (.stackOverflow (encode (.call nnn)) s.pc)) := inv.ofSame
    exact Inv.ofNext h (reported.setPc (zextAddr_le nnn))
  · next pushed => exact Inv.ofNext h ((inv.push lo hi pushed).setPc (zextAddr_le nnn))

theorem execSkp_keeps_inv {x : Reg} (inv : Inv s) (hi : s.pc.toNat ≤ 4096) (h : execSkp x s = .next t) : Inv t := by
  unfold execSkp at h
  split at h
  · exact inv.outOfRange h
  · exact Inv.ofNext h (inv.skipIf _ hi)

theorem execSknp_keeps_inv {x : Reg} (inv : Inv s) (hi : s.pc.toNat ≤ 4096) (h : execSknp x s = .next t) : Inv t := by
  unfold execSknp at h
  split at h
  · exact inv.outOfRange h
  · exact Inv.ofNext h (inv.skipIf _ hi)

theorem execDrw_keeps_inv {x y : Reg} {n : Nibble} (inv : Inv s) (h : execDrw x y n s = .next t) : Inv t := by
  rw [execDrw_eq] at h
  split at h
  · exact Inv.ofNext h inv.ofSame
  · exact inv.outOfRange h

theorem execLdB_keeps_inv {x : Reg} (inv : Inv s) (h : execLdB x s = .next t) : Inv t := by
  rw [execLdB_eq] at h
  split at h
  · next fits => exact Inv.ofNext h (inv.putAll fits)
  · exact inv.outOfRange h

theorem execStoreRegs_keeps_inv {x : Reg} (inv : Inv s) (h : execStoreRegs x s = .next t) : Inv t := by
  rw [execStoreRegs_eq] at h
  split at h
  · next fits => exact Inv.ofNext h (inv.putAll (by rwa [State.block_length]))
  · exact inv.outOfRange h

theorem execLoadRegs_keeps_inv {x : Reg} (inv : Inv s) (h : execLoadRegs x s = .next t) : Inv t := by
  rw [execLoadRegs_eq] at h
  split at h
  · exact Inv.ofNext h inv.ofSame
  · exact inv.outOfRange h

/-- R34: an instruction keeps the invariant from a state whose `pc` is an advanced one, from 2 to 4096. -/
theorem exec_keeps_inv {i : Instr} (inv : Inv s) (lo : 2 ≤ s.pc.toNat) (hi : s.pc.toNat ≤ 4096)
    (h : exec i s = .next t) : Inv t := by
  cases i with
  | ret => exact execRet_keeps_inv inv h
  | call nnn => exact execCall_keeps_inv inv lo hi h
  | jp nnn => exact Inv.ofNext h (inv.setPc (zextAddr_le nnn))
  | jpV0 nnn => exact Inv.ofNext h (inv.setPc (State.offsetTarget_le nnn))
  | seImm _ _ | sneImm _ _ | seReg _ _ | sneReg _ _ => exact Inv.ofNext h (inv.skipIf _ hi)
  | skp x => exact execSkp_keeps_inv inv hi h
  | sknp x => exact execSknp_keeps_inv inv hi h
  | drw x y n => exact execDrw_keeps_inv inv h
  | ldB x => exact execLdB_keeps_inv inv h
  | storeRegs x => exact execStoreRegs_keeps_inv inv h
  | loadRegs x => exact execLoadRegs_keeps_inv inv h
  | cls | ldImm _ _ | addImm _ _ | ldVxDT _ | rnd _ _ | ldI _ | addI _ | ldF _ | ldDTVx _ =>
    exact Inv.ofNext h inv.ofSame
  | ldReg _ _ | orReg _ _ | andReg _ _ | xorReg _ _ | addReg _ _ | subReg _ _ | shr _ _ | subnReg _ _ | shl _ _ =>
    exact Inv.ofNext h inv.ofSame

/-! ## The step and the host's operations -/

theorem Inv.advance (inv : Inv s) (fetched : s.pc.toNat ≤ 4094) : Inv s.advance :=
  inv.ofStack (by simp) (by simp) inv.memory (by rw [State.advance_pc_toNat fetched]; omega)

/-- R34: a failed fetch leaves `pc` as it is; every other step goes on from the advanced state. -/
theorem step_keeps_inv (inv : Inv s) (h : step s = .next t) : Inv t := by
  obtain ⟨-, rfl⟩ | ⟨fetched, illegal | illegal | ⟨_, _, -, executed⟩⟩ := step_cases h
  · exact inv.ofSame
  · obtain ⟨_, -, rfl⟩ := illegal
    exact (inv.advance fetched).ofSame
  · obtain ⟨_, -, rfl⟩ := illegal
    exact (inv.advance fetched).ofSame
  · have advanced := State.advance_pc_toNat fetched
    exact exec_keeps_inv (inv.advance fetched) (by omega) (by omega) executed

/-- R34, R201. -/
theorem stepWith_keeps_inv {r : Byte} (inv : Inv s) (h : stepWith r s = .next t) : Inv t := by
  obtain ⟨u, stepped, rfl⟩ := stepWith_cases h
  have injected : Inv (s.injectRandom [r]) := inv.ofSame
  have kept : Inv u := step_keeps_inv injected stepped
  exact kept.ofSame

end

/-- R33, R34: at reset the stack is empty and every slot is zero. -/
theorem inv_reset : Inv State.reset where
  memory := rfl
  depth := Nat.zero_le _
  vacant k _ := by simp [State.reset]
  entries k hk := absurd hk (Nat.not_lt_zero _)
  pcBound := by decide

/-- R34, R195: only Reset and Load write what the invariant reads. -/
theorem HostOp.apply_keeps_inv {s : State} (op : HostOp) (inv : Inv s) : Inv (op.apply s) := by
  cases op with
  | reset => exact inv_reset.ofSame rfl rfl rfl rfl
  | load image =>
    simp only [HostOp.apply, State.load_eq]
    split_ifs with fits
    · have inside : Config.loadBase + image.length ≤ 4096 := by unfold Config.loadBase; omega
      exact inv.putAll inside
    · exact inv
  | keyWrite k v => exact inv.ofSame rfl rfl rfl rfl
  | timerTick => exact (inv.ofSame : Inv s.timerTick)
  | signalReadClear => exact inv.ofSame rfl rfl rfl rfl
  | injectRandom bytes => exact inv.ofSame rfl rfl rfl rfl

/-! ## The obligations of 10_state.md -/

/-- Settles O52, by cases on what the step does. -/
theorem stepKeepsTheInvariant : Obligations.StepKeepsTheInvariant :=
  fun _ _ inv h => step_keeps_inv inv h

/-- Settles O53, by cases on the host operation, and for a step given a byte from O52. -/
theorem hostOperationsKeepTheInvariant : Obligations.HostOperationsKeepTheInvariant :=
  ⟨fun op _ inv => op.apply_keeps_inv inv, fun _ _ _ inv h => stepWith_keeps_inv inv h⟩

/-- Settles O51. -/
theorem resetMeetsTheInvariant : Obligations.ResetMeetsTheInvariant := inv_reset

/-- Settles O54, by induction on how the state is reached. -/
theorem reachableStatesMeetTheInvariant : Obligations.ReachableStatesMeetTheInvariant := by
  intro s reached
  induction reached with
  | reset => exact inv_reset
  | step s t _ h inv => exact step_keeps_inv inv h
  | stepWith r s t _ h inv => exact stepWith_keeps_inv inv h
  | host op s _ inv => exact op.apply_keeps_inv inv

/-- Settles O16: the slot `stack[SP - 1]` does not exist, so the pop answers no address. -/
theorem retBeyondTheSlotsFaults : Obligations.RetBeyondTheSlotsFaults := by
  intro s beyond
  show execRet s = _
  rw [execRet, State.pop_absent beyond]

/-- Settles O50, piece by piece in the order of R33. -/
theorem resetLeavesEverythingZero : Obligations.ResetLeavesEverythingZero := by
  refine ⟨fun k => ?registers, rfl, rfl, rfl, fun k => ?slots, fun a => ?memory, fun p => ?pixels, rfl, rfl,
    fun k => ?keys, rfl⟩
  case registers => simp [State.reset]
  case slots => simp [State.reset]
  case memory => exact Memory.byteAt_nil a
  case pixels => simp [State.reset, Screen.pixel]
  case keys => simp [State.reset]

end Sys2Proof.Machine

/-! # The memory array: reads, one-byte writes, fetches of stored bytes, accesses out of range (20_memory.md R52 to R65)

A fetch reads the two bytes at `pc`, so what it answers after a store is read off `Memory.byteAt_putAll` at these
addresses. The three places a fetch can meet the stored bytes are three lemmas over any store; the one-byte write and
the two storing instructions are instances. -/

namespace Sys2Proof.Machine

/-! ## The access primitives in one equation each -/

theorem State.memRead1_eq (s : State) (a : Nat) :
    s.memRead1 a = if a ≤ 4095 then some (s.mem.byteAt a) else none := by
  have range : inRange a 1 = true ↔ a ≤ 4095 := by rw [inRange_iff]; omega
  simp only [State.memRead1, range]

theorem State.memRead2_eq (s : State) (a : Nat) :
    s.memRead2 a = if a ≤ 4094 then some (wordOfBytes (s.mem.byteAt a) (s.mem.byteAt (a + 1))) else none := by
  have range : inRange a 2 = true ↔ a ≤ 4094 := by rw [inRange_iff]; omega
  simp only [State.memRead2, range]

/-- R54: the byte at the lower address counts 256 times. -/
theorem wordOfBytes_toNat (hi lo : Byte) : (wordOfBytes hi lo).toNat = hi.toNat * 256 + lo.toNat := by
  rw [wordOfBytes, BitVec.toNat_append, ← Nat.shiftLeft_add_eq_or_of_lt lo.isLt, Nat.shiftLeft_eq]

/-- R53: a one-byte write is refused above 4095 only, and replaces that byte of memory. -/
theorem State.storeByte_eq (s : State) (a : Nat) (b : Byte) :
    s.storeBytes a [b] = if a ≤ 4095 then some (s.setMem (s.mem.putAll a [b])) else none := by
  have range : ([b].length = 0 ∨ a + [b].length ≤ 4096) ↔ a ≤ 4095 := by
    rw [List.length_singleton]
    omega
  simp only [State.storeBytes_eq, range]

/-- R53: the frame of a one-byte write is its address. -/
theorem frame_storeByte (s : State) (a : Nat) (b : Byte) :
    SameExcept [] [a] [] s (s.setMem (s.mem.putAll a [b])) :=
  frame_putAll s a [b]

/-! ## A fetch after a store -/

/-- `Memory.byteAt_putAll_stored` for a byte given as a lookup. -/
theorem Memory.byteAt_putAll_of_getElem? {m : Memory} {a k : Nat} {bytes : List Byte} {b : Byte}
    (byte : bytes[k]? = some b) : (m.putAll a bytes).byteAt (a + k) = b := by
  simp [Memory.byteAt_putAll, byte]

section
variable {u : State} {m : Memory} {a k : Nat} {bytes : List Byte} {b c : Byte}

/-- A fetch in range answers the two bytes at `pc`, whatever names them. -/
theorem State.fetch_of_bytes {hi lo : Byte} (range : u.pc.toNat ≤ 4094) (high : u.mem.byteAt u.pc.toNat = hi)
    (low : u.mem.byteAt (u.pc.toNat + 1) = lo) : u.fetch = some (hi ++ lo) := by
  rw [State.fetch_eq, if_pos range, high, low]

/-- R62: the second byte of the fetch is the first stored one. -/
theorem State.fetch_before_stored (mem : u.mem = m.putAll a bytes) (range : a ≤ 4095) (first : bytes[0]? = some b)
    (place : u.pc.toNat + 1 = a) : u.fetch = some (m.byteAt u.pc.toNat ++ b) := by
  refine State.fetch_of_bytes (by omega) ?high ?low
  case high => rw [mem, Memory.byteAt_putAll_other _ _ _ _ (.inl (by omega))]
  case low => rw [mem, place]; exact Memory.byteAt_putAll_of_getElem? first

/-- R62: both bytes of the fetch are stored ones, neighbours in the store. -/
theorem State.fetch_inside_stored (mem : u.mem = m.putAll a bytes) (range : a + bytes.length ≤ 4096)
    (here : bytes[k]? = some b) (after : bytes[k + 1]? = some c) (place : u.pc.toNat = a + k) :
    u.fetch = some (b ++ c) := by
  have inside : k + 1 < bytes.length := (List.getElem?_eq_some_iff.mp after).1
  refine State.fetch_of_bytes (by omega) ?high ?low
  case high => rw [mem, place]; exact Memory.byteAt_putAll_of_getElem? here
  case low => rw [mem, place, Nat.add_assoc]; exact Memory.byteAt_putAll_of_getElem? after

/-- R62: the first byte of the fetch is the last stored one. -/
theorem State.fetch_at_last_stored (mem : u.mem = m.putAll a bytes) (last : bytes[k]? = some b)
    (length : bytes.length = k + 1) (place : u.pc.toNat = a + k) (range : u.pc.toNat ≤ 4094) :
    u.fetch = some (b ++ m.byteAt (u.pc.toNat + 1)) := by
  refine State.fetch_of_bytes range ?high ?low
  case high => rw [mem, place]; exact Memory.byteAt_putAll_of_getElem? last
  case low => rw [mem, Memory.byteAt_putAll_other _ _ _ _ (.inr (by omega))]

end

/-! ## What the two storing instructions store -/

/-- R166: register `k` is byte `k` of the block. -/
theorem State.block_getElem? (s : State) {x k : Reg} (h : k ≤ x) : (s.block x)[k.val]? = some s.v[k] := by
  have inBlock : k.val ≤ x.val := h
  rw [State.block_get, dif_pos inBlock]
  rfl

/-- R164: the digits of a byte, by name. -/
theorem bcd_eq (b : Byte) : ∃ h d o : Byte, bcd b = [h, d, o] ∧
    h.toNat = b.toNat / 100 ∧ d.toNat = b.toNat / 10 % 10 ∧ o.toNat = b.toNat % 10 :=
  ⟨_, _, _, rfl, by simp⟩

/-- R166 in range. -/
theorem exec_storeRegs_inRange {x : Reg} {s : State} (range : s.i.toNat + x.val ≤ 4095) :
    exec (.storeRegs x) s = .next (s.setMem (s.mem.putAll (s.indexed 0) (s.block x))) := by
  show execStoreRegs x s = _
  rw [execStoreRegs_eq]
  exact if_pos (by simp only [State.indexed, blockLength]; omega)

/-- R165 in range. -/
theorem exec_ldB_inRange {x : Reg} {s : State} (range : s.i.toNat + 2 ≤ 4095) :
    exec (.ldB x) s = .next (s.setMem (s.mem.putAll (s.indexed 0) (bcd s.v[x]))) := by
  show execLdB x s = _
  rw [execLdB_eq]
  exact if_pos (by simp only [State.indexed]; omega)

/-! ## Accesses out of range (R65, R186) -/

/-- R186: an access out of range answers the report and nothing else. -/
theorem outOfRange_only_reports (i : Instr) (s : State) :
    ∃ t, outOfRange i s = .next t ∧ Reported (.addressOutOfRange (encode i) s.pc) s t ∧
      SameExcept [] [] [.reports] s t :=
  ⟨_, rfl, ⟨rfl, rfl⟩, frame_report s _⟩

section
variable {x y : Reg} {n : Nibble} {s : State}

theorem exec_drw_outOfRange (rows : 1 ≤ n.toNat) (out : 4095 < s.i.toNat + n.toNat - 1) :
    exec (.drw x y n) s = outOfRange (.drw x y n) s := by
  show execDrw x y n s = _
  rw [execDrw_eq]
  exact if_neg (by simp only [State.indexed]; omega)

theorem exec_ldB_outOfRange (out : 4095 < s.i.toNat + 2) : exec (.ldB x) s = outOfRange (.ldB x) s := by
  show execLdB x s = _
  rw [execLdB_eq]
  exact if_neg (by simp only [State.indexed]; omega)

theorem exec_storeRegs_outOfRange (out : 4095 < s.i.toNat + x.val) :
    exec (.storeRegs x) s = outOfRange (.storeRegs x) s := by
  show execStoreRegs x s = _
  rw [execStoreRegs_eq]
  exact if_neg (by simp only [State.indexed, blockLength]; omega)

theorem exec_loadRegs_outOfRange (out : 4095 < s.i.toNat + x.val) :
    exec (.loadRegs x) s = outOfRange (.loadRegs x) s := by
  show execLoadRegs x s = _
  rw [execLoadRegs_eq]
  exact if_neg (by simp only [State.indexed, blockLength]; omega)

end

/-! ## The obligations of 20_memory.md -/

/-- Settles O7, from the equations of the two reads. -/
theorem memReadChecksRangeAndIsBigEndian : Obligations.MemReadChecksRangeAndIsBigEndian := by
  intro s a
  refine ⟨fun inside => ?_, fun above => ?_, fun inside => ⟨_, ?_, wordOfBytes_toNat _ _⟩, fun above => ?_⟩
  · rw [State.memRead1_eq, if_pos inside]
  · rw [State.memRead1_eq, if_neg (by omega)]
  · rw [State.memRead2_eq, if_pos (by omega)]
  · rw [State.memRead2_eq, if_neg (by omega)]

/-- Settles O8: the stored byte is the first and the last of a store of one byte. -/
theorem memWriteChangesOneByte : Obligations.MemWriteChangesOneByte := by
  intro s a b
  refine ⟨fun above => ?refused, fun inside =>
    ⟨s.setMem (s.mem.putAll a [b]), ?stored, ?read, frame_storeByte s a b, ?high, ?low⟩⟩
  case refused => rw [State.storeByte_eq, if_neg (by omega)]
  case stored => rw [State.storeByte_eq, if_pos inside]
  case read =>
    rw [State.memRead1_eq, if_pos inside, State.setMem_mem]
    exact congrArg some (Memory.byteAt_putAll_of_getElem? (k := 0) rfl)
  case high =>
    rintro rfl next
    exact State.fetch_at_last_stored (k := 0) rfl rfl rfl rfl (show s.pc.toNat ≤ 4094 by omega)
  case low => exact fun place => State.fetch_before_stored rfl inside rfl place

/-- Settles O37, by cases on the instruction that reaches out of memory. -/
theorem outOfRangeAccessOnlyReports : Obligations.OutOfRangeAccessOnlyReports := by
  rintro s x y n i (⟨rfl, rows, out⟩ | ⟨rfl, out⟩ | ⟨rfl, out⟩ | ⟨rfl, out⟩)
  · rw [exec_drw_outOfRange rows out]
    exact outOfRange_only_reports _ s
  · rw [exec_ldB_outOfRange out]
    exact outOfRange_only_reports _ s
  · rw [exec_storeRegs_outOfRange out]
    exact outOfRange_only_reports _ s
  · rw [exec_loadRegs_outOfRange out]
    exact outOfRange_only_reports _ s

/-- Settles O46, by the place of the fetch: byte `k` that `Fx55` stores is register `k`, and the three bytes that `Fx33`
stores are the digits of R164. -/
theorem storedBytesAreFetched : Obligations.StoredBytesAreFetched := by
  refine ⟨fun x s range => ?storeRegs, fun x s range => ?ldB⟩
  case storeRegs =>
    have length := State.block_length s x
    have fits : s.indexed 0 + (x.val + 1) ≤ 4096 := Nat.succ_le_succ range
    refine ⟨_, exec_storeRegs_inRange range, fun u mem => ⟨?before, fun k j hj next => ?inside, ?last⟩⟩
    case before => exact State.fetch_before_stored mem (by omega) (State.block_getElem? s (Fin.zero_le x))
    case inside =>
      have hk : k ≤ x := Fin.le_def.mpr (by have := Fin.le_def.mp hj; omega)
      have after : (s.block x)[k.val + 1]? = some s.v[j] := by rw [← next]; exact State.block_getElem? s hj
      exact State.fetch_inside_stored mem (length ▸ fits) (State.block_getElem? s hk) after
    case last => exact State.fetch_at_last_stored mem (State.block_getElem? s (le_refl x)) length
  case ldB =>
    obtain ⟨h, d, o, digits, hundreds, tens, ones⟩ := bcd_eq s.v[x]
    have fits : s.indexed 0 + 3 ≤ 4096 := Nat.succ_le_succ range
    refine ⟨_, h, d, o, exec_ldB_inRange range, hundreds, tens, ones, fun u mem => ?_⟩
    rw [digits] at mem
    exact ⟨State.fetch_before_stored mem (by omega) rfl,
      State.fetch_inside_stored (k := 0) mem fits rfl rfl,
      State.fetch_inside_stored (k := 1) mem fits rfl rfl,
      State.fetch_at_last_stored (k := 2) mem rfl rfl⟩

end Sys2Proof.Machine

/-! # Encoding and decoding (30_encoding.md R71 to R86)

The operands of an instruction are read off the fields of its word, whatever the instruction: `Instr.refill`. Each row of
the opcode map decodes to the instruction of that row, refilled (`decodesAs_row`), and an instruction refilled from its own
word is itself (`refill_encode`). The converse, that decoding drops no bit (`encode_of_decode`), follows the case tree. -/

namespace Sys2Proof

open Machine (DecodesAs)

/-! ## The operands of an instruction, read from a word -/

/-- The instruction of the same row of the opcode map whose operands are the fields of `w` (R71, R72). -/
def Instr.refill (i : Instr) (w : Word) : Instr :=
  match i with
  | .cls           => .cls
  | .ret           => .ret
  | .jp _          => .jp (fieldNNN w)
  | .call _        => .call (fieldNNN w)
  | .seImm _ _     => .seImm (fieldX w) (fieldKK w)
  | .sneImm _ _    => .sneImm (fieldX w) (fieldKK w)
  | .seReg _ _     => .seReg (fieldX w) (fieldY w)
  | .ldImm _ _     => .ldImm (fieldX w) (fieldKK w)
  | .addImm _ _    => .addImm (fieldX w) (fieldKK w)
  | .ldReg _ _     => .ldReg (fieldX w) (fieldY w)
  | .orReg _ _     => .orReg (fieldX w) (fieldY w)
  | .andReg _ _    => .andReg (fieldX w) (fieldY w)
  | .xorReg _ _    => .xorReg (fieldX w) (fieldY w)
  | .addReg _ _    => .addReg (fieldX w) (fieldY w)
  | .subReg _ _    => .subReg (fieldX w) (fieldY w)
  | .shr _ _       => .shr (fieldX w) (fieldY w)
  | .subnReg _ _   => .subnReg (fieldX w) (fieldY w)
  | .shl _ _       => .shl (fieldX w) (fieldY w)
  | .sneReg _ _    => .sneReg (fieldX w) (fieldY w)
  | .ldI _         => .ldI (fieldNNN w)
  | .jpV0 _        => .jpV0 (fieldNNN w)
  | .rnd _ _       => .rnd (fieldX w) (fieldKK w)
  | .drw _ _ _     => .drw (fieldX w) (fieldY w) (fieldN w)
  | .skp _         => .skp (fieldX w)
  | .sknp _        => .sknp (fieldX w)
  | .ldVxDT _      => .ldVxDT (fieldX w)
  | .ldDTVx _      => .ldDTVx (fieldX w)
  | .addI _        => .addI (fieldX w)
  | .ldF _         => .ldF (fieldX w)
  | .ldB _         => .ldB (fieldX w)
  | .storeRegs _   => .storeRegs (fieldX w)
  | .loadRegs _    => .loadRegs (fieldX w)

@[simp] theorem Instr.refill_row (i : Instr) (w : Word) : (i.refill w).row = i.row := by
  cases i <;> rfl

/-- R86: the encoder places every operand in the field the decoder reads it from. -/
@[simp] theorem Instr.refill_encode (i : Instr) : i.refill (encode i) = i := by
  cases i <;> simp [Instr.refill, encode, formatT_eq]

/-! ## Each row of the opcode map decodes to its instruction (R74, R75, R77)

One lemma for each kind of mask; `decodesAs_row` puts the 32 rows together. -/

section
variable (pattern : Word) {i : Instr} {f : Word → Instr} {g : Reg → Reg → Instr} {h : Reg → Instr}

/-- A full mask: the word is the pattern. -/
theorem decodesAs_word (one : decode pattern = .instr i) : DecodesAs 0xFFFF pattern (fun _ => i) := by
  intro w sel
  have same : w = pattern := (BitVec.and_allOnes (x := w)).symm.trans sel
  rw [same, one]

/-- A mask over the family: the family decides. -/
theorem decodesAs_family (family : ∀ {w}, fieldOp w = fieldOp pattern → decode w = .instr (f w)) :
    DecodesAs 0xF000 pattern f :=
  fun _ sel => family (fieldOp_of_mask sel rfl)

/-- Families 0x5 and 0x9 with the low nibble 0 (R81). -/
theorem decodesAs_zeroNibble (zero : fieldN pattern = 0#4)
    (family : ∀ {w}, fieldOp w = fieldOp pattern → decode w = decodeZeroNibble (fieldN w) (f w)) :
    DecodesAs 0xF00F pattern f := by
  intro w sel
  have low : fieldN w = 0#4 := (fieldN_of_mask sel rfl).trans zero
  rw [family (fieldOp_of_mask sel rfl), low]
  rfl

/-- Family 0x8, by the low nibble (R75). -/
theorem decodesAs_alu (family : fieldOp pattern = 0x8#4)
    (form : ∀ x y, decodeAlu x y (fieldN pattern) = .instr (g x y)) :
    DecodesAs 0xF00F pattern (fun w => g (fieldX w) (fieldY w)) := by
  intro w sel
  rw [decode_family8 ((fieldOp_of_mask sel rfl).trans family), fieldN_of_mask sel rfl, form]

/-- Family 0xE, by the tag byte (R76). -/
theorem decodesAs_key (family : fieldOp pattern = 0xE#4) (form : ∀ x, decodeKey x (fieldKK pattern) = .instr (h x)) :
    DecodesAs 0xF0FF pattern (fun w => h (fieldX w)) := by
  intro w sel
  rw [decode_familyE ((fieldOp_of_mask sel rfl).trans family), fieldKK_of_mask sel rfl, form]

/-- Family 0xF, by the tag byte (R77). -/
theorem decodesAs_misc (family : fieldOp pattern = 0xF#4) (form : ∀ x, decodeMisc x (fieldKK pattern) = .instr (h x)) :
    DecodesAs 0xF0FF pattern (fun w => h (fieldX w)) := by
  intro w sel
  rw [decode_familyF ((fieldOp_of_mask sel rfl).trans family), fieldKK_of_mask sel rfl, form]

end

/-- R74, R75, R77: a word that selects a row decodes to the row's instruction, its operands the word's fields.
For a row written out this is, by `rfl`, its `DecodesAs`: `decodesAs_row (.skp 0)` is that of `Ex9E`. -/
theorem decodesAs_row : ∀ i : Instr, DecodesAs i.row.mask i.row.pattern i.refill
  | .cls           => decodesAs_word 0x00E0 rfl
  | .ret           => decodesAs_word 0x00EE rfl
  | .jp _          => decodesAs_family 0x1000 decode_family1
  | .call _        => decodesAs_family 0x2000 decode_family2
  | .seImm _ _     => decodesAs_family 0x3000 decode_family3
  | .sneImm _ _    => decodesAs_family 0x4000 decode_family4
  | .seReg _ _     => decodesAs_zeroNibble 0x5000 rfl decode_family5
  | .ldImm _ _     => decodesAs_family 0x6000 decode_family6
  | .addImm _ _    => decodesAs_family 0x7000 decode_family7
  | .ldReg _ _     => decodesAs_alu 0x8000 rfl fun _ _ => rfl
  | .orReg _ _     => decodesAs_alu 0x8001 rfl fun _ _ => rfl
  | .andReg _ _    => decodesAs_alu 0x8002 rfl fun _ _ => rfl
  | .xorReg _ _    => decodesAs_alu 0x8003 rfl fun _ _ => rfl
  | .addReg _ _    => decodesAs_alu 0x8004 rfl fun _ _ => rfl
  | .subReg _ _    => decodesAs_alu 0x8005 rfl fun _ _ => rfl
  | .shr _ _       => decodesAs_alu 0x8006 rfl fun _ _ => rfl
  | .subnReg _ _   => decodesAs_alu 0x8007 rfl fun _ _ => rfl
  | .shl _ _       => decodesAs_alu 0x800E rfl fun _ _ => rfl
  | .sneReg _ _    => decodesAs_zeroNibble 0x9000 rfl decode_family9
  | .ldI _         => decodesAs_family 0xA000 decode_familyA
  | .jpV0 _        => decodesAs_family 0xB000 decode_familyB
  | .rnd _ _       => decodesAs_family 0xC000 decode_familyC
  | .drw _ _ _     => decodesAs_family 0xD000 decode_familyD
  | .skp _         => decodesAs_key 0xE09E rfl fun _ => rfl
  | .sknp _        => decodesAs_key 0xE0A1 rfl fun _ => rfl
  | .ldVxDT _      => decodesAs_misc 0xF007 rfl fun _ => rfl
  | .ldDTVx _      => decodesAs_misc 0xF015 rfl fun _ => rfl
  | .addI _        => decodesAs_misc 0xF01E rfl fun _ => rfl
  | .ldF _         => decodesAs_misc 0xF029 rfl fun _ => rfl
  | .ldB _         => decodesAs_misc 0xF033 rfl fun _ => rfl
  | .storeRegs _   => decodesAs_misc 0xF055 rfl fun _ => rfl
  | .loadRegs _    => decodesAs_misc 0xF065 rfl fun _ => rfl

theorem OpcodeRow.selects_iff (r : OpcodeRow) (w : Word) : r.selects w = true ↔ w &&& r.mask = r.pattern :=
  beq_iff_eq

/-- The word of an instruction selects the instruction's own row. -/
theorem row_selects_encode : ∀ i : Instr, i.row.selects (encode i) = true
  | .cls           => Laws.EncodeRow.cls
  | .ret           => Laws.EncodeRow.ret
  | .jp nnn        => Laws.EncodeRow.jp nnn
  | .call nnn      => Laws.EncodeRow.call nnn
  | .seImm x kk    => Laws.EncodeRow.seImm x kk
  | .sneImm x kk   => Laws.EncodeRow.sneImm x kk
  | .seReg x y     => Laws.EncodeRow.seReg x y
  | .ldImm x kk    => Laws.EncodeRow.ldImm x kk
  | .addImm x kk   => Laws.EncodeRow.addImm x kk
  | .ldReg x y     => Laws.EncodeRow.ldReg x y
  | .orReg x y     => Laws.EncodeRow.orReg x y
  | .andReg x y    => Laws.EncodeRow.andReg x y
  | .xorReg x y    => Laws.EncodeRow.xorReg x y
  | .addReg x y    => Laws.EncodeRow.addReg x y
  | .subReg x y    => Laws.EncodeRow.subReg x y
  | .shr x y       => Laws.EncodeRow.shr x y
  | .subnReg x y   => Laws.EncodeRow.subnReg x y
  | .shl x y       => Laws.EncodeRow.shl x y
  | .sneReg x y    => Laws.EncodeRow.sneReg x y
  | .ldI nnn       => Laws.EncodeRow.ldI nnn
  | .jpV0 nnn      => Laws.EncodeRow.jpV0 nnn
  | .rnd x kk      => Laws.EncodeRow.rnd x kk
  | .drw x y n     => Laws.EncodeRow.drw x y n
  | .skp x         => Laws.EncodeRow.skp x
  | .sknp x        => Laws.EncodeRow.sknp x
  | .ldVxDT x      => Laws.EncodeRow.ldVxDT x
  | .ldDTVx x      => Laws.EncodeRow.ldDTVx x
  | .addI x        => Laws.EncodeRow.addI x
  | .ldF x         => Laws.EncodeRow.ldF x
  | .ldB x         => Laws.EncodeRow.ldB x
  | .storeRegs x   => Laws.EncodeRow.storeRegs x
  | .loadRegs x    => Laws.EncodeRow.loadRegs x

theorem decode_of_selects {i : Instr} {w : Word} (sel : i.row.selects w = true) : decode w = .instr (i.refill w) :=
  decodesAs_row i w ((i.row.selects_iff w).mp sel)

/-- R73, R86. -/
@[simp] theorem decode_encode (i : Instr) : decode (encode i) = .instr i := by
  rw [decode_of_selects (row_selects_encode i), Instr.refill_encode]

/-- R54, R86: the two bytes of an instruction decode to it, and the bytes after them are left. -/
@[simp] theorem decodeBytes_encodeBytes (i : Instr) (rest : List Byte) :
    decodeBytes (encodeBytes i ++ rest) = some (.instr i, rest) := by
  show some (decode (wordOfBytes (highByte (encode i)) (lowByte (encode i))), rest) = _
  rw [wordOfBytes_bytes, decode_encode]

/-- Every row of the opcode map is the row of an instruction. -/
theorem exists_row_of_mem {r : OpcodeRow} (mem : r ∈ opcodeRows) : ∃ i : Instr, i.row = r := by
  revert r
  simp [opcodeRows]

/-! ## Decoding drops no bit -/

section
variable {w : Word} {op n : Nibble} {x y : Reg} {kk : Byte} {i j : Instr}

theorem formatA_of_fieldOp (family : fieldOp w = op) : formatA op (fieldNNN w) = w :=
  family ▸ formatA_fields w

theorem formatK_of_fieldOp (family : fieldOp w = op) : formatK op (fieldX w) (fieldKK w) = w :=
  family ▸ formatK_fields w

theorem formatR_of_fieldOp (family : fieldOp w = op) (low : fieldN w = n) :
    formatR op (fieldX w) (fieldY w) n = w :=
  family ▸ low ▸ formatR_fields w

theorem encode_of_decodeSystem (h : decodeSystem w = .instr i) : encode i = w := by
  unfold decodeSystem at h
  split at h
  next word => cases h; exact word.symm
  next =>
    split at h
    next word => cases h; exact word.symm
    next => cases h

theorem decodeZeroNibble_eq_instr (h : decodeZeroNibble n j = .instr i) : n = 0#4 ∧ j = i := by
  unfold decodeZeroNibble at h
  split at h
  next zero => exact ⟨zero, Decoded.instr.inj h⟩
  next => cases h

theorem encode_of_decodeAlu (h : decodeAlu x y n = .instr i) : encode i = formatR 0x8 x y n := by
  unfold decodeAlu at h
  split at h <;> cases h <;> rfl

theorem encode_of_decodeKey (h : decodeKey x kk = .instr i) : encode i = formatK 0xE x kk := by
  unfold decodeKey at h
  split at h <;> cases h <;> rfl

theorem encode_of_decodeMisc (h : decodeMisc x kk = .instr i) : encode i = formatK 0xF x kk := by
  unfold decodeMisc at h
  split at h <;> cases h <;> rfl

/-- R73, R74: by the family of the word; a family with sub-forms asks the lemma of its sub-decoder. -/
theorem encode_of_decode (h : decode w = .instr i) : encode i = w := by
  rcases fieldOp_cases w with op | op | op | op | op | op | op | op | op | op | op | op | op | op | op | op
  · exact encode_of_decodeSystem (decode_family0 op ▸ h)
  · cases (decode_family1 op).symm.trans h; exact formatA_of_fieldOp op
  · cases (decode_family2 op).symm.trans h; exact formatA_of_fieldOp op
  · cases (decode_family3 op).symm.trans h; exact formatK_of_fieldOp op
  · cases (decode_family4 op).symm.trans h; exact formatK_of_fieldOp op
  · obtain ⟨zero, rfl⟩ := decodeZeroNibble_eq_instr (decode_family5 op ▸ h)
    exact formatR_of_fieldOp op zero
  · cases (decode_family6 op).symm.trans h; exact formatK_of_fieldOp op
  · cases (decode_family7 op).symm.trans h; exact formatK_of_fieldOp op
  · exact (encode_of_decodeAlu (decode_family8 op ▸ h)).trans (formatR_of_fieldOp op rfl)
  · obtain ⟨zero, rfl⟩ := decodeZeroNibble_eq_instr (decode_family9 op ▸ h)
    exact formatR_of_fieldOp op zero
  · cases (decode_familyA op).symm.trans h; exact formatA_of_fieldOp op
  · cases (decode_familyB op).symm.trans h; exact formatA_of_fieldOp op
  · cases (decode_familyC op).symm.trans h; exact formatK_of_fieldOp op
  · cases (decode_familyD op).symm.trans h; exact formatR_of_fieldOp op rfl
  · exact (encode_of_decodeKey (decode_familyE op ▸ h)).trans (formatK_of_fieldOp op)
  · exact (encode_of_decodeMisc (decode_familyF op ▸ h)).trans (formatK_of_fieldOp op)

theorem row_selects_of_decode (h : decode w = .instr i) : i.row.selects w = true :=
  encode_of_decode h ▸ row_selects_encode i

end

/-! ## The illegal words (R80, R81) -/

section
variable {w : Word} {x y : Reg} {n : Nibble} {kk : Byte} {i : Instr}

@[simp] theorem decodeSystem_eq_unknown :
    decodeSystem w = .unknownOpcode ↔ w.toNat ≠ 0x00E0 ∧ w.toNat ≠ 0x00EE := by
  unfold decodeSystem
  split
  · simp [*]
  · split
    · simp [*]
    · simp only [true_iff]; bv_omega

@[simp] theorem decodeSystem_ne_invalid : decodeSystem w ≠ .invalidOpcodeFormat := by
  unfold decodeSystem
  split <;> [skip; split] <;> simp

@[simp] theorem decodeZeroNibble_ne_unknown : decodeZeroNibble n i ≠ .unknownOpcode := by
  unfold decodeZeroNibble
  split <;> simp

@[simp] theorem decodeZeroNibble_eq_invalid : decodeZeroNibble n i = .invalidOpcodeFormat ↔ n.toNat ≠ 0 := by
  unfold decodeZeroNibble
  split
  · simp [*]
  · simp only [true_iff]; bv_omega

@[simp] theorem decodeAlu_eq_unknown :
    decodeAlu x y n = .unknownOpcode ↔ n.toNat ∈ [0x8, 0x9, 0xA, 0xB, 0xC, 0xD, 0xF] := by
  unfold decodeAlu
  split <;> simp_all [BitVec.toNat_eq]
  omega

@[simp] theorem decodeAlu_ne_invalid : decodeAlu x y n ≠ .invalidOpcodeFormat := by
  unfold decodeAlu
  split <;> simp

@[simp] theorem decodeKey_eq_unknown : decodeKey x kk = .unknownOpcode ↔ kk.toNat ∉ [0x9E, 0xA1] := by
  unfold decodeKey
  split <;> simp_all [BitVec.toNat_eq]

@[simp] theorem decodeKey_ne_invalid : decodeKey x kk ≠ .invalidOpcodeFormat := by
  unfold decodeKey
  split <;> simp

@[simp] theorem decodeMisc_eq_unknown :
    decodeMisc x kk = .unknownOpcode ↔ kk.toNat ∉ [0x07, 0x15, 0x1E, 0x29, 0x33, 0x55, 0x65] := by
  unfold decodeMisc
  split <;> simp_all [BitVec.toNat_eq]

@[simp] theorem decodeMisc_ne_invalid : decodeMisc x kk ≠ .invalidOpcodeFormat := by
  unfold decodeMisc
  split <;> simp

/-- R73: ten families decode to an instruction whatever the operands; the other six have sub-forms. -/
theorem decode_cases (w : Word) :
    ((fieldOp w).toNat ∉ [0x0, 0x5, 0x8, 0x9, 0xE, 0xF] ∧ ∃ i, decode w = .instr i) ∨
    (fieldOp w = 0x0#4 ∧ decode w = decodeSystem w) ∨
    ((fieldOp w = 0x5#4 ∨ fieldOp w = 0x9#4) ∧ ∃ i, decode w = decodeZeroNibble (fieldN w) i) ∨
    (fieldOp w = 0x8#4 ∧ decode w = decodeAlu (fieldX w) (fieldY w) (fieldN w)) ∨
    (fieldOp w = 0xE#4 ∧ decode w = decodeKey (fieldX w) (fieldKK w)) ∨
    (fieldOp w = 0xF#4 ∧ decode w = decodeMisc (fieldX w) (fieldKK w)) := by
  rcases fieldOp_cases w with op | op | op | op | op | op | op | op | op | op | op | op | op | op | op | op
  · exact .inr (.inl ⟨op, decode_family0 op⟩)
  · exact .inl ⟨by simp [op], _, decode_family1 op⟩
  · exact .inl ⟨by simp [op], _, decode_family2 op⟩
  · exact .inl ⟨by simp [op], _, decode_family3 op⟩
  · exact .inl ⟨by simp [op], _, decode_family4 op⟩
  · exact .inr (.inr (.inl ⟨.inl op, _, decode_family5 op⟩))
  · exact .inl ⟨by simp [op], _, decode_family6 op⟩
  · exact .inl ⟨by simp [op], _, decode_family7 op⟩
  · exact .inr (.inr (.inr (.inl ⟨op, decode_family8 op⟩)))
  · exact .inr (.inr (.inl ⟨.inr op, _, decode_family9 op⟩))
  · exact .inl ⟨by simp [op], _, decode_familyA op⟩
  · exact .inl ⟨by simp [op], _, decode_familyB op⟩
  · exact .inl ⟨by simp [op], _, decode_familyC op⟩
  · exact .inl ⟨by simp [op], _, decode_familyD op⟩
  · exact .inr (.inr (.inr (.inr (.inl ⟨op, decode_familyE op⟩))))
  · exact .inr (.inr (.inr (.inr (.inr ⟨op, decode_familyF op⟩))))

/-- R80. -/
theorem decode_eq_unknown_iff (w : Word) : decode w = .unknownOpcode ↔
    (w.toNat / 4096 = 0x0 ∧ w.toNat ≠ 0x00E0 ∧ w.toNat ≠ 0x00EE) ∨
    (w.toNat / 4096 = 0x8 ∧ w.toNat % 16 ∈ [0x8, 0x9, 0xA, 0xB, 0xC, 0xD, 0xF]) ∨
    (w.toNat / 4096 = 0xE ∧ w.toNat % 256 ∉ [0x9E, 0xA1]) ∨
    (w.toNat / 4096 = 0xF ∧ w.toNat % 256 ∉ [0x07, 0x15, 0x1E, 0x29, 0x33, 0x55, 0x65]) := by
  rw [← fieldOp_toNat, ← fieldN_toNat, ← fieldKK_toNat]
  rcases decode_cases w with ⟨op, i, e⟩ | ⟨op, e⟩ | ⟨op | op, i, e⟩ | ⟨op, e⟩ | ⟨op, e⟩ | ⟨op, e⟩
  · simp_all
  · rw [e, op, decodeSystem_eq_unknown]; simp
  · simp [e, op]
  · simp [e, op]
  · rw [e, op, decodeAlu_eq_unknown]; simp
  · rw [e, op, decodeKey_eq_unknown]; simp
  · rw [e, op, decodeMisc_eq_unknown]; simp

/-- R81. -/
theorem decode_eq_invalid_iff (w : Word) : decode w = .invalidOpcodeFormat ↔
    (w.toNat / 4096 = 0x5 ∨ w.toNat / 4096 = 0x9) ∧ w.toNat % 16 ≠ 0 := by
  rw [← fieldOp_toNat, ← fieldN_toNat]
  rcases decode_cases w with ⟨op, i, e⟩ | ⟨op, e⟩ | ⟨op | op, i, e⟩ | ⟨op, e⟩ | ⟨op, e⟩ | ⟨op, e⟩
  · simp_all
  · simp [e, op]
  · rw [e, op, decodeZeroNibble_eq_invalid]; simp
  · rw [e, op, decodeZeroNibble_eq_invalid]; simp
  · simp [e, op]
  · simp [e, op]
  · simp [e, op]

end

/-! ## The obligations of 30_encoding.md -/

/-- Settles O1: the word of an instruction selects its row, and the row decodes to the instruction refilled. -/
theorem encodeThenDecodeGivesInstruction : Obligations.EncodeThenDecodeGivesInstruction :=
  fun i => ⟨decode_encode i, decodeBytes_encodeBytes i⟩

/-- Settles O2, by the family of the word. -/
theorem decodeThenEncodeGivesWord : Obligations.DecodeThenEncodeGivesWord :=
  fun _ _ => encode_of_decode

/-- Settles O3. A word that selects the row of an instruction decodes to that instruction refilled; a word that decodes
to an instruction is its encoding. Two rows that one word selects are the row of the one instruction it decodes to. -/
theorem decodeAgreesWithOpcodeMap : Obligations.DecodeAgreesWithOpcodeMap := by
  constructor
  case left =>
    intro w r mem
    constructor
    · intro sel
      obtain ⟨i, rfl⟩ := exists_row_of_mem mem
      exact ⟨i.refill w, decode_of_selects sel, i.refill_row w⟩
    · rintro ⟨i, decoded, rfl⟩
      exact row_selects_of_decode decoded
  case right =>
    intro w r r' mem mem' sel sel'
    obtain ⟨i, rfl⟩ := exists_row_of_mem mem
    obtain ⟨j, rfl⟩ := exists_row_of_mem mem'
    have same : i.refill w = j.refill w :=
      Decoded.instr.inj ((decode_of_selects sel).symm.trans (decode_of_selects sel'))
    rw [← i.refill_row w, same, j.refill_row]

/-- Settles O4. -/
theorem illegalWordsAreTheListedOnes : Obligations.IllegalWordsAreTheListedOnes :=
  fun w => ⟨decode_eq_unknown_iff w, decode_eq_invalid_iff w⟩

/-- Settles O5, by running the decoder on each word. -/
theorem writtenOutWordsDecode : Obligations.WrittenOutWordsDecode := by
  unfold Obligations.WrittenOutWordsDecode
  decide

end Sys2Proof

/-! # Control flow (40_control_flow.md R100 to R113)

A step in range runs what its word decodes to. The eight skips are one update, `skipIf`, under different conditions: its
rule stands once for "skip when `P`" and once for "skip unless `P`". CALL and RET are a push and a pop followed by a jump,
so what they answer is read off the rules of the two stack operations. -/

namespace Sys2Proof.Machine

section
variable {s t : State} {w ir : Word} {x : Reg}

/-! ## The step (R100, R101) -/

/-- R101: no word is fetched above 4094. -/
theorem step_of_pc_above (above : 4094 < s.pc.toNat) : step s = fetchFailed s := by
  have unfetched : s.fetch = none := by rw [State.fetch_eq, if_neg (by omega)]
  simp only [step, unfetched]

/-- R100: a word that decodes to an instruction runs it at the advanced state. -/
theorem step_of_instr {i : Instr} (fetched : s.fetch = some ir) (decoded : decode ir = .instr i) :
    step s = exec i s.advance := by
  simp only [step, fetched, decoded]

/-- R81, R100: a word of an invalid format is reported at the advanced state. -/
theorem step_of_invalid (fetched : s.fetch = some ir) (decoded : decode ir = .invalidOpcodeFormat) :
    step s = invalidWord ir s.advance := by
  simp only [step, fetched, decoded]

/-! ## Jump targets (R104, R111) -/

theorem zextAddr_toNat (nnn : Addr) : (zextAddr nnn).toNat = nnn.toNat :=
  BitVec.toNat_setWidth_of_le (by decide)

/-- R111: 12 bits and 8 bits add without a wrap of the 16. -/
theorem State.offsetTarget_toNat (s : State) (nnn : Addr) :
    (s.offsetTarget nnn).toNat = nnn.toNat + s.v[v0].toNat := by
  have byte : (zextByte (s.readV v0)).toNat = s.v[v0].toNat := BitVec.toNat_setWidth_of_le (by decide)
  have := nnn.isLt
  have := s.v[v0].isLt
  rw [State.offsetTarget, BitVec.toNat_add, zextAddr_toNat, byte, Nat.mod_eq_of_lt (by omega)]

/-! ## Skips (R107 to R113) -/

/-- A skip when `P` holds: `pc` goes 2 further then, and nothing else changes. -/
theorem skipIf_next_of_iff (s : State) {c : Bool} {P : Prop} [Decidable P] (skips : c = true ↔ P) :
    ∃ t, (.next (s.skipIf c) : Result) = .next t ∧ t.pc = (if P then s.pc + 2 else s.pc) ∧
      SameExcept [] [] [.pc] s t := by
  refine ⟨_, rfl, ?_, frame_skipIf s c⟩
  simp only [State.skipIf_pc, skips]

/-- A skip unless `P` holds. -/
theorem skipIf_next_of_iff_not (s : State) {c : Bool} {P : Prop} [Decidable P] (skips : c = true ↔ ¬ P) :
    ∃ t, (.next (s.skipIf c) : Result) = .next t ∧ t.pc = (if P then s.pc else s.pc + 2) ∧
      SameExcept [] [] [.pc] s t := by
  rw [← ite_not]
  exact skipIf_next_of_iff s skips

/-- R81: the low nibble of a word that is not zero under the mask 0x000F. -/
theorem fieldN_toNat_ne_zero (low : w &&& 0x000F ≠ 0) : (fieldN w).toNat ≠ 0 := by
  intro zero
  refine low (BitVec.eq_of_toNat_eq ?_)
  rw [fieldN_toNat] at zero
  rw [BitVec.toNat_and]
  exact (Nat.and_two_pow_sub_one_eq_mod w.toNat 4).trans zero

/-- R81: in a family that asks for the low nibble 0, another low nibble is an invalid format. -/
theorem decode_invalid_of_low_nibble {i : Instr} (family : decode w = decodeZeroNibble (fieldN w) i)
    (low : w &&& 0x000F ≠ 0) : decode w = .invalidOpcodeFormat := by
  rw [family, decodeZeroNibble_eq_invalid]
  exact fieldN_toNat_ne_zero low

/-! ## Key skips (R112, R113) -/

theorem State.keyOf_inside {k : Fin 16} (index : s.v[x].toNat = k.val) : s.keyOf x = some s.key[k] := by
  have inside : s.v[x].toNat < 16 := index ▸ k.isLt
  rw [State.keyOf_eq, dif_pos inside]
  simp only [index]
  rfl

theorem State.keyOf_above (above : 15 < s.v[x].toNat) : s.keyOf x = none := by
  rw [State.keyOf_eq, dif_neg (by omega)]

theorem exec_skp_of_key {pressed : Bool} (key : s.keyOf x = some pressed) :
    exec (.skp x) s = .next (s.skipIf pressed) := by
  simp only [exec, execSkp, key]

theorem exec_sknp_of_key {pressed : Bool} (key : s.keyOf x = some pressed) :
    exec (.sknp x) s = .next (s.skipIf (!pressed)) := by
  simp only [exec, execSknp, key]

/-- R112, R113: a key skip whose index names no key only reports (the spec's decision D12). -/
theorem exec_keySkip_outOfRange {i : Instr} (absent : s.keyOf x = none) (keySkip : i ∈ [Instr.skp x, Instr.sknp x]) :
    exec i s = outOfRange i s := by
  obtain rfl | rfl : i = .skp x ∨ i = .sknp x := by simpa using keySkip
  · simp only [exec, execSkp, absent]
  · simp only [exec, execSknp, absent]

/-! ## The call stack (R102, R103) -/

theorem State.push_full (full : 16 ≤ s.sp.toNat) (a : Word) : s.push a = none := by
  rw [State.push_eq, if_pos full]

/-- R102: a push with room. -/
theorem State.push_room (s : State) (a : Word) (room : s.sp.toNat < 16) :
    ∃ t, s.push a = some t ∧ t.stack[s.sp.toNat] = a ∧
      (∀ k : Fin 16, k.val ≠ s.sp.toNat → t.stack[k] = s.stack[k]) ∧ t.sp.toNat = s.sp.toNat + 1 ∧
      SameExcept [] [] [.stack] s t := by
  refine ⟨_, by rw [State.push_eq, if_neg (by omega)], ?top, fun k other => ?others, depth_succ_toNat room,
    frame_setStack s _ _⟩
  case top => simp
  case others => simp [other.symm]

/-- R103: a pop from depth `k + 1`, `k` being a slot. -/
theorem State.pop_slot (s : State) (k : Fin 16) (depth : s.sp.toNat = k.val + 1) :
    ∃ t, s.pop = .word s.stack[k] t ∧ t.stack[k] = 0#16 ∧ (∀ j : Fin 16, j ≠ k → t.stack[j] = s.stack[j]) ∧
      t.sp.toNat = k.val ∧ SameExcept [] [] [.stack] s t := by
  have nonempty : 0 < s.sp.toNat := by omega
  have slot : s.sp.toNat - 1 = k.val := by omega
  have popped := State.pop_word nonempty (by omega)
  simp only [slot] at popped
  refine ⟨_, popped, ?vacated, fun j other => ?others, (depth_pred_toNat nonempty).trans slot, frame_setStack s _ _⟩
  case vacated => simp
  case others => simp [Fin.val_ne_of_ne other.symm]

/-- R102, R103: two pushes, then two pops, give the words back in reverse order. -/
theorem State.push_push_pop_pop (s : State) (a b : Word) (room : s.sp.toNat + 2 ≤ 16) :
    ∃ s₁ s₂ s₃ s₄, s.push a = some s₁ ∧ s₁.push b = some s₂ ∧ s₂.pop = .word b s₃ ∧ s₃.pop = .word a s₄ ∧
      s₄.sp = s.sp := by
  obtain ⟨s₁, push₁, top₁, -, depth₁, -⟩ := s.push_room a (by omega)
  obtain ⟨s₂, push₂, top₂, others₂, depth₂, -⟩ := s₁.push_room b (by omega)
  obtain ⟨s₃, pop₃, -, others₃, depth₃, -⟩ := s₂.pop_slot ⟨s₁.sp.toNat, by omega⟩ depth₂
  have slot : s.sp.toNat < 16 := by omega
  obtain ⟨s₄, pop₄, -, -, depth₄, -⟩ := s₃.pop_slot ⟨s.sp.toNat, slot⟩ (depth₃.trans depth₁)
  have kept : s₃.stack[s.sp.toNat] = a := calc
    s₃.stack[s.sp.toNat] = s₂.stack[s.sp.toNat] := others₃ ⟨s.sp.toNat, slot⟩ (Fin.ne_of_val_ne (by simp; omega))
    _ = s₁.stack[s.sp.toNat] := others₂ ⟨s.sp.toNat, slot⟩ (by simp; omega)
    _ = a := top₁
  exact ⟨s₁, s₂, s₃, s₄, push₁, push₂, top₂ ▸ pop₃, kept ▸ pop₄, BitVec.eq_of_toNat_eq depth₄⟩

/-! ## CALL and RET (R105, R106, R184, R185) -/

theorem exec_call_of_push {nnn : Addr} (pushed : s.push s.pc = some t) :
    exec (.call nnn) s = .next (t.setPc (zextAddr nnn)) := by
  simp only [exec, execCall, pushed]

/-- R184: a full stack is reported, and the jump is taken. -/
theorem exec_call_full (nnn : Addr) (full : 16 ≤ s.sp.toNat) :
    exec (.call nnn) s = .next ((s.report (.stackOverflow (encode (.call nnn)) s.pc)).setPc (zextAddr nnn)) := by
  simp only [exec, execCall, State.push_full full]

theorem exec_ret_of_pop {a : Word} (popped : s.pop = .word a t) : exec .ret s = .next (t.setPc a) := by
  simp only [exec, execRet, popped]

/-- R185: an empty stack is reported. -/
theorem exec_ret_empty (empty : s.sp.toNat = 0) :
    exec .ret s = .next (s.report (.stackUnderflow 0x00EE#16 s.pc)) := by
  simp only [exec, execRet, State.pop_empty empty]
  rfl

end

/-! ## The obligations of 40_control_flow.md -/

/-- Settles O11: the failed fetch is all of the step. -/
theorem fetchOutOfRangeStaysPut : Obligations.FetchOutOfRangeStaysPut :=
  fun s above => ⟨_, step_of_pc_above above, ⟨rfl, rfl⟩, frame_report s _⟩

/-- Settles O13, from the rules of push and pop. -/
theorem stackPushesAndPops : Obligations.StackPushesAndPops :=
  ⟨fun _ a nnn full => ⟨State.push_full full a, _, exec_call_full nnn full, ⟨rfl, rfl⟩, rfl, rfl⟩,
    State.push_room,
    fun _ empty => ⟨State.pop_empty empty, _, exec_ret_empty empty, ⟨rfl, rfl⟩, rfl, rfl⟩,
    State.pop_slot,
    State.push_push_pop_pop⟩

/-- Settles O14: the jump after the push moves only `pc`. -/
theorem callPushesAndJumps : Obligations.CallPushesAndJumps := by
  refine ⟨decodesAs_row (.call 0), fun nnn s room => ?room, fun nnn s full => ?full⟩
  case room =>
    obtain ⟨t, pushed, top, others, depth, frame⟩ := s.push_room s.pc room
    exact ⟨_, exec_call_of_push pushed, zextAddr_toNat nnn, top, others, depth, (frame.trans (frame_setPc t _)).within⟩
  case full =>
    exact ⟨_, exec_call_full nnn full, zextAddr_toNat nnn, ⟨rfl, rfl⟩,
      ((frame_report s _).trans (frame_setPc _ _)).within⟩

/-- Settles O15: the jump after the pop moves only `pc`. -/
theorem retPopsOrReportsUnderflow : Obligations.RetPopsOrReportsUnderflow := by
  refine ⟨decodesAs_row .ret, fun s k depth => ?pops, fun s empty => ?empty⟩
  case pops =>
    obtain ⟨t, popped, vacated, others, shallower, frame⟩ := s.pop_slot k depth
    exact ⟨_, exec_ret_of_pop popped, rfl, vacated, others, shallower, (frame.trans (frame_setPc t _)).within⟩
  case empty => exact ⟨_, exec_ret_empty empty, ⟨rfl, rfl⟩, frame_report s _⟩

/-- Settles O18: the two skips on the comparison of `Vx` with `kk`. -/
theorem immediateSkipsCompareVx : Obligations.ImmediateSkipsCompareVx :=
  ⟨decodesAs_row (.seImm 0 0), decodesAs_row (.sneImm 0 0),
    fun _ _ s => ⟨skipIf_next_of_iff s beq_iff_eq, skipIf_next_of_iff_not s bne_iff_ne⟩⟩

/-- Settles O19: the skip on the comparison of two registers; a word of family 0x5 with another low nibble is reported
at the advanced `pc`. -/
theorem seRegSkipsOnEqual : Obligations.SeRegSkipsOnEqual := by
  refine ⟨decodesAs_row (.seReg 0 0), fun _ _ s => skipIf_next_of_iff s beq_iff_eq, fun w family low => ?invalid,
    fun s range decoded => ?noSkip⟩
  case invalid => exact decode_invalid_of_low_nibble (decode_family5 (fieldOp_of_mask family rfl)) low
  case noSkip => exact ⟨_, step_of_invalid (State.fetch_of_bytes range rfl rfl) decoded, rfl⟩

/-- Settles O20, as O19 with the condition turned round. -/
theorem sneRegSkipsOnDifferent : Obligations.SneRegSkipsOnDifferent :=
  ⟨decodesAs_row (.sneReg 0 0), fun _ _ s => skipIf_next_of_iff_not s bne_iff_ne,
    fun _ family low => decode_invalid_of_low_nibble (decode_family9 (fieldOp_of_mask family rfl)) low⟩

/-- Settles O21, by whether the index names a key. -/
theorem keySkipsReadTheKeyArray : Obligations.KeySkipsReadTheKeyArray := by
  refine ⟨decodesAs_row (.skp 0), decodesAs_row (.sknp 0), fun x s k index => ⟨?pressed, ?released⟩,
    fun x s i above keySkip => ?above⟩
  case pressed =>
    rw [exec_skp_of_key (State.keyOf_inside index)]
    exact skipIf_next_of_iff s Iff.rfl
  case released =>
    rw [exec_sknp_of_key (State.keyOf_inside index)]
    exact skipIf_next_of_iff_not s (by simp)
  case above =>
    rw [exec_keySkip_outOfRange (State.keyOf_above above) keySkip]
    exact outOfRange_only_reports i s

/-- Settles O6: in range the fetch answers the two bytes at `pc`. -/
theorem stepRunsDecodedInstruction : Obligations.StepRunsDecodedInstruction :=
  fun s _ range decoded =>
    ⟨step_of_instr (State.fetch_of_bytes range rfl rfl) decoded, rfl, rfl, rfl, frame_advance s⟩

/-- Settles O12: the 12 bits of the target fit in `pc`. -/
theorem jpLoadsTarget : Obligations.JpLoadsTarget :=
  ⟨decodesAs_row (.jp 0), fun nnn s => ⟨_, rfl, zextAddr_toNat nnn, frame_setPc s _⟩⟩

/-- Settles O17: the sum of 12 bits and 8 bits fits in `pc`. -/
theorem jpV0AddsV0 : Obligations.JpV0AddsV0 :=
  ⟨decodesAs_row (.jpV0 0), fun nnn s => ⟨_, rfl, s.offsetTarget_toNat nnn, frame_setPc s _⟩⟩

end Sys2Proof.Machine

/-! # Immediate loads and adds, index load, random (41_load_add_random.md R120 to R124)

A step that does not execute `Cxkk` commutes with the injection of bytes (`step_injectRandom`): whatever the queue of the
random source holds, such a step ends in the same state up to that queue. A byte that is injected for one such step and
taken back after it therefore leaves no trace (`stepWith_eq`). -/

namespace Sys2Proof.Machine

section
variable {s : State}

/-! ## The step where it runs no instruction (R80, R101) -/

theorem step_of_unfetched (unfetched : s.fetch = none) : step s = fetchFailed s := by
  simp only [step, unfetched]

theorem step_of_unknown {ir : Word} (fetched : s.fetch = some ir) (decoded : decode ir = .unknownOpcode) :
    step s = unknownWord ir s.advance := by
  simp only [step, fetched, decoded]

/-! ## Loads and the random byte (R120, R123, R124) -/

theorem State.writeV_same (s : State) (x : Reg) (b : Byte) : (s.writeV x b).v[x] = b :=
  (s.writeV_get x b x x.isLt).trans (if_pos rfl)

theorem State.rnd_injected {b : Byte} {bs : List Byte} (queue : s.rndQueue = b :: bs) : s.rnd = b := by
  simp only [State.rnd, queue]

theorem State.rnd_free (queue : s.rndQueue = []) : s.rnd = Config.randomByte s.rndDraws := by
  simp only [State.rnd, queue]

/-- R123, R124: `Vx` receives the source's byte AND `kk`, and the source advances by one. -/
theorem exec_rnd_next (x : Reg) (kk : Byte) (s : State) :
    ∃ t, exec (.rnd x kk) s = .next t ∧ t.v[x] = s.rnd &&& kk ∧ t.rndQueue = s.rndQueue.tail ∧
      t.rndDraws = (if s.rndQueue = [] then s.rndDraws + 1 else s.rndDraws) ∧ SameExcept [x] [] [.random] s t :=
  ⟨_, rfl, State.writeV_same _ x _, s.advanceRnd_rndQueue, s.advanceRnd_rndDraws,
    (frame_advanceRnd s).trans (frame_writeV _ x _)⟩

/-! ## Injecting bytes into the state a step ends in -/

/-- The outcome with `bytes` injected into the next state, where there is one. -/
def injectNext (bytes : List Byte) : Result → Result
  | .next t    => .next (t.injectRandom bytes)
  | .fault r   => .fault r
  | .refused r => .refused r

/-- R201: the byte is injected before the step, and the queue is what it was after it. -/
theorem stepWith_eq_injectNext (r : Byte) (s : State) :
    stepWith r s = injectNext s.rndQueue (step (s.injectRandom [r])) := by
  unfold stepWith
  cases step (s.injectRandom [r]) <;> rfl

/-- Of two injections the second decides. -/
theorem injectNext_injectNext (bytes bytes' : List Byte) (out : Result) :
    injectNext bytes' (injectNext bytes out) = injectNext bytes' out := by
  cases out <;> rfl

/-! ## What does not read the random source commutes with an injection (R124) -/

variable (bytes : List Byte)

theorem next_skipIf_injectRandom (c : Bool) (s : State) :
    (.next ((s.injectRandom bytes).skipIf c) : Result) = injectNext bytes (.next (s.skipIf c)) := by
  cases c <;> rfl

theorem exec_ret_injectRandom (s : State) :
    exec .ret (s.injectRandom bytes) = injectNext bytes (exec .ret s) := by
  obtain empty | ⟨lo, hi⟩ | beyond : s.sp.toNat = 0 ∨ (0 < s.sp.toNat ∧ s.sp.toNat ≤ 16) ∨ 16 < s.sp.toNat := by omega
  · rw [exec_ret_empty empty, exec_ret_empty (s := s.injectRandom bytes) empty]
    rfl
  · rw [exec_ret_of_pop (State.pop_word lo hi), exec_ret_of_pop (State.pop_word (s := s.injectRandom bytes) lo hi)]
    rfl
  · rw [retBeyondTheSlotsFaults s beyond, retBeyondTheSlotsFaults (s.injectRandom bytes) beyond]
    rfl

theorem exec_call_injectRandom (nnn : Addr) (s : State) :
    exec (.call nnn) (s.injectRandom bytes) = injectNext bytes (exec (.call nnn) s) := by
  by_cases full : 16 ≤ s.sp.toNat
  · rw [exec_call_full nnn full, exec_call_full (s := s.injectRandom bytes) nnn full]
    rfl
  · have pushed (s : State) (room : ¬ 16 ≤ s.sp.toNat) := exec_call_of_push (nnn := nnn)
      ((s.push_eq s.pc).trans (if_neg room))
    rw [pushed s full, pushed (s.injectRandom bytes) full]
    rfl

theorem exec_keySkip_injectRandom {i : Instr} {x : Reg} (keySkip : i ∈ [Instr.skp x, Instr.sknp x]) (s : State) :
    exec i (s.injectRandom bytes) = injectNext bytes (exec i s) := by
  cases key : s.keyOf x with
  | none =>
    rw [exec_keySkip_outOfRange key keySkip, exec_keySkip_outOfRange (s := s.injectRandom bytes) key keySkip]
    rfl
  | some pressed =>
    obtain rfl | rfl : i = .skp x ∨ i = .sknp x := by simpa using keySkip
    · rw [exec_skp_of_key key, exec_skp_of_key (s := s.injectRandom bytes) key]
      exact next_skipIf_injectRandom bytes pressed s
    · rw [exec_sknp_of_key key, exec_sknp_of_key (s := s.injectRandom bytes) key]
      exact next_skipIf_injectRandom bytes (!pressed) s

/-- R65: an instruction that tests its range first commutes when what it does in range commutes. -/
theorem ranged_injectRandom {fits : Prop} [Decidable fits] {i : Instr} {done done' : Result}
    (commutes : done' = injectNext bytes done) :
    (if fits then done' else outOfRange i (s.injectRandom bytes)) =
      injectNext bytes (if fits then done else outOfRange i s) := by
  rw [commutes, apply_ite (injectNext bytes)]
  rfl

/-- R124: an instruction other than `Cxkk` does the same whatever the random source holds. -/
theorem exec_injectRandom {i : Instr} (notRnd : ∀ x kk, i ≠ .rnd x kk) (s : State) :
    exec i (s.injectRandom bytes) = injectNext bytes (exec i s) := by
  cases i with
  | rnd x kk => exact absurd rfl (notRnd x kk)
  | cls | jp _ | jpV0 _ | ldI _ | addI _ | ldF _ => rfl
  | ldImm _ _ | addImm _ _ | ldVxDT _ | ldDTVx _ => rfl
  | ldReg _ _ | orReg _ _ | andReg _ _ | xorReg _ _ => rfl
  | addReg _ _ | subReg _ _ | shr _ _ | subnReg _ _ | shl _ _ => rfl
  | seImm _ _ | sneImm _ _ | seReg _ _ | sneReg _ _ => exact next_skipIf_injectRandom bytes _ s
  | skp x | sknp x => exact exec_keySkip_injectRandom bytes (x := x) (by simp) s
  | ret => exact exec_ret_injectRandom bytes s
  | call nnn => exact exec_call_injectRandom bytes nnn s
  | drw x y n =>
    simp only [exec, execDrw_eq]
    exact ranged_injectRandom bytes rfl
  | ldB x =>
    simp only [exec, execLdB_eq]
    exact ranged_injectRandom bytes rfl
  | storeRegs x =>
    simp only [exec, execStoreRegs_eq]
    exact ranged_injectRandom bytes rfl
  | loadRegs x =>
    simp only [exec, execLoadRegs_eq]
    exact ranged_injectRandom bytes rfl

/-- R124: neither fetch nor decode reads the random source, so a step that does not execute `Cxkk` does not. -/
theorem step_injectRandom (notRnd : ∀ x kk, s.fetch.map decode ≠ some (.instr (.rnd x kk))) :
    step (s.injectRandom bytes) = injectNext bytes (step s) := by
  have sameFetch : (s.injectRandom bytes).fetch = s.fetch := rfl
  cases fetched : s.fetch with
  | none =>
    rw [step_of_unfetched fetched, step_of_unfetched (sameFetch.trans fetched)]
    rfl
  | some ir =>
    cases decoded : decode ir with
    | instr i =>
      rw [step_of_instr fetched decoded, step_of_instr (sameFetch.trans fetched) decoded]
      refine exec_injectRandom bytes (fun x kk isRnd => notRnd x kk ?_) s.advance
      rw [fetched, Option.map_some, decoded, isRnd]
    | unknownOpcode =>
      rw [step_of_unknown fetched decoded, step_of_unknown (sameFetch.trans fetched) decoded]
      rfl
    | invalidOpcodeFormat =>
      rw [step_of_invalid fetched decoded, step_of_invalid (sameFetch.trans fetched) decoded]
      rfl

/-- R201: a step that does not execute `Cxkk` is the step without a byte given to it, the queue put back. -/
theorem stepWith_eq (notRnd : ∀ x kk, s.fetch.map decode ≠ some (.instr (.rnd x kk))) (r : Byte) :
    stepWith r s = injectNext s.rndQueue (step s) := by
  rw [stepWith_eq_injectNext, step_injectRandom [r] notRnd, injectNext_injectNext]

end

/-! ## The obligations of 41_load_add_random.md -/

/-- Settles O25: the source answers the head of the queue, or a free draw where the queue is empty. -/
theorem rndMasksTheSuppliedByte : Obligations.RndMasksTheSuppliedByte := by
  refine ⟨decodesAs_row (.rnd 0 0), fun x kk b bs s queue => ?injected, fun x kk s queue => ?free⟩
  case injected =>
    simpa only [State.rnd_injected queue, queue, List.tail_cons, reduceCtorEq, if_false] using exec_rnd_next x kk s
  case free =>
    simpa only [State.rnd_free queue, queue, List.tail_nil, if_true] using exec_rnd_next x kk s

/-- Settles O26: both steps are the step without a byte given to it. -/
theorem onlyRndLearnsTheRandomByte : Obligations.OnlyRndLearnsTheRandomByte :=
  fun _ r r' notRnd => (stepWith_eq notRnd r).trans (stepWith_eq notRnd r').symm

/-- Settles O22: the one update is the write of `Vx`. -/
theorem ldImmLoadsImmediate : Obligations.LdImmLoadsImmediate :=
  ⟨decodesAs_row (.ldImm 0 0), fun x kk s => ⟨_, rfl, s.writeV_same x kk, frame_writeV s x _⟩⟩

/-- Settles O23: 8-bit addition is the sum modulo 256, and `Vx` is the one register written. -/
theorem addImmWrapsWithoutFlag : Obligations.AddImmWrapsWithoutFlag := by
  refine ⟨decodesAs_row (.addImm 0 0), fun x kk s => ⟨_, rfl, ?sum, frame_writeV s x _⟩⟩
  case sum => rw [State.writeV_same, State.readV_eq, BitVec.toNat_add]

/-- Settles O24: the 12 bits of the address fit in `I`. -/
theorem ldILoadsAddress : Obligations.LdILoadsAddress :=
  ⟨decodesAs_row (.ldI 0), fun nnn s => ⟨_, rfl, zextAddr_toNat nnn, frame_setI s _⟩⟩

end Sys2Proof.Machine

/-! # The ALU group (42_alu.md R130 to R141)

The five flag-writing rows of the table of R130 stand as one lemma each: the result as a number, the flag as the test that
decides it. An instruction of such a row leaves these two in `Vx` and VF (`aluStep_next_of_row`), one of the other rows
its result in `Vx` (`aluStep_next_of_no_flag`). -/

namespace Sys2Proof.Machine

/-! ## The flag-writing rows of the table (R130, R134 to R138) -/

section
variable (a b : Byte)

theorem alu_add_row :
    (alu .add a b).1.toNat = (a.toNat + b.toNat) % 256 ∧
      (alu .add a b).2 = some (decide (a.toNat + b.toNat > 255)) :=
  ⟨alu_result_toNat .add a b, rfl⟩

theorem alu_sub_row :
    (alu .sub a b).1.toNat = (a.toNat + 256 - b.toNat) % 256 ∧ (alu .sub a b).2 = some (decide (a.toNat ≥ b.toNat)) := by
  have fits : b.toNat ≤ 256 := b.isLt.le
  exact ⟨(alu_result_toNat .sub a b).trans (congrArg (· % 256) (Nat.add_sub_assoc fits _).symm), rfl⟩

/-- R137: SUBN is SUB with the operands exchanged. -/
theorem alu_subn_row :
    (alu .subn a b).1.toNat = (b.toNat + 256 - a.toNat) % 256 ∧ (alu .subn a b).2 = some (decide (b.toNat ≥ a.toNat)) :=
  alu_sub_row b a

theorem alu_shr_row :
    (alu .shr a b).1.toNat = a.toNat / 2 ∧ (alu .shr a b).2 = some (decide (a.toNat % 2 = 1)) :=
  ⟨alu_result_toNat .shr a b, congrArg some (shiftedOutRight_eq a)⟩

theorem alu_shl_row :
    (alu .shl a b).1.toNat = 2 * a.toNat % 256 ∧ (alu .shl a b).2 = some (decide (a.toNat / 128 = 1)) := by
  have bit7 : 128 ≤ a.toNat ↔ a.toNat / 128 = 1 := by
    have := a.isLt
    omega
  exact ⟨alu_result_toNat .shl a b, congrArg some ((shiftedOutLeft_eq a).trans (decide_eq_decide.mpr bit7))⟩

end

/-! ## What an alu write leaves in `Vx` and in VF (R24, R130) -/

/-- The result is written last, so it stands in `Vx` even where `x` is VF. -/
theorem State.writeAlu_same (s : State) (x : Reg) (out : Byte × Option Bool) : (s.writeAlu x out).v[x] = out.1 :=
  (s.writeAlu_get x out x x.isLt).trans (if_pos rfl)

/-- The flag stays in VF where the result does not overwrite it. -/
theorem State.writeAlu_flag (s : State) {x : Reg} (notVF : x ≠ vf) (r : Byte) (f : Bool) :
    (s.writeAlu x (r, some f)).v[vf] = flagByte f :=
  (s.writeAlu_get x (r, some f) vf vf.isLt).trans (if_neg (Fin.val_ne_of_ne notVF))

/-! ## The instructions of the group -/

section
variable (s : State) (x y : Reg) {op : AluOp}

/-- A row of the table without a flag: the result in `Vx`, nothing else changed. -/
theorem aluStep_next_of_no_flag {r : Byte} (row : alu op s.v[x] s.v[y] = (r, none)) :
    ∃ t, aluStep op x y s = .next t ∧ t.v[x] = r ∧ SameExcept [x] [] [] s t := by
  simp only [aluStep, State.readV_eq, row]
  exact ⟨_, rfl, s.writeAlu_same x _, frame_writeAlu_none s x r⟩

/-- A row of the table with a flag: the result in `Vx`, the flag in VF unless `x` is VF, nothing else changed. -/
theorem aluStep_next_of_row {n : Nat} {p : Prop} [Decidable p]
    (row : (alu op s.v[x] s.v[y]).1.toNat = n ∧ (alu op s.v[x] s.v[y]).2 = some (decide p)) :
    ∃ t, aluStep op x y s = .next t ∧ t.v[x].toNat = n ∧ (x ≠ vf → t.v[vf].toNat = if p then 1 else 0) ∧
      SameExcept [x, vf] [] [] s t := by
  obtain ⟨result, flag⟩ := row
  refine ⟨_, rfl, ?result, fun notVF => ?flag, frame_writeAlu s x _⟩
  case result => rw [State.writeAlu_same, State.readV_eq, State.readV_eq, result]
  case flag =>
    have out : alu op s.v[x] s.v[y] = ((alu op s.v[x] s.v[y]).1, some (decide p)) := Prod.ext rfl flag
    rw [State.readV_eq, State.readV_eq, out, State.writeAlu_flag s notVF, flagByte_toNat]
    simp only [decide_eq_true_eq]

/-- R136: the bit shifted out to the right is the remainder by 2. -/
theorem aluStep_shr_next :
    ∃ t, aluStep .shr x y s = .next t ∧ t.v[x].toNat = s.v[x].toNat / 2 ∧
      (x ≠ vf → t.v[vf].toNat = s.v[x].toNat % 2) ∧ SameExcept [x, vf] [] [] s t := by
  have bit0 : (if s.v[x].toNat % 2 = 1 then 1 else 0) = s.v[x].toNat % 2 := by split <;> omega
  simpa only [bit0] using aluStep_next_of_row s x y (alu_shr_row _ _)

/-- R138: the bit shifted out to the left is the quotient by 128. -/
theorem aluStep_shl_next :
    ∃ t, aluStep .shl x y s = .next t ∧ t.v[x].toNat = 2 * s.v[x].toNat % 256 ∧
      (x ≠ vf → t.v[vf].toNat = s.v[x].toNat / 128) ∧ SameExcept [x, vf] [] [] s t := by
  have bit7 : (if s.v[x].toNat / 128 = 1 then 1 else 0) = s.v[x].toNat / 128 := by
    have := s.v[x].isLt
    split <;> omega
  simpa only [bit7] using aluStep_next_of_row s x y (alu_shl_row _ _)

end

/-! ## The obligations of 42_alu.md -/

/-- Settles O27, from the rows of the table and the two writes. -/
theorem aluComputesTheTable : Obligations.AluComputesTheTable :=
  ⟨fun a b => ⟨rfl, rfl, rfl, rfl, alu_add_row a b, alu_sub_row a b, alu_shr_row a b, alu_subn_row a b, alu_shl_row a b⟩,
    fun x r s => ⟨s.writeAlu_same x _, frame_writeAlu_none s x r⟩,
    fun x r f s => ⟨s.writeAlu_same x _, fun notVF => s.writeAlu_flag notVF r f, frame_writeAlu s x _⟩⟩

/-- Settles O28: the four rows without a flag. -/
theorem moveAndLogicWriteOnlyVx : Obligations.MoveAndLogicWriteOnlyVx :=
  ⟨decodesAs_row (.ldReg 0 0), decodesAs_row (.orReg 0 0), decodesAs_row (.andReg 0 0), decodesAs_row (.xorReg 0 0),
    fun x y s => ⟨aluStep_next_of_no_flag s x y (op := .mov) rfl, aluStep_next_of_no_flag s x y (op := .or) rfl,
      aluStep_next_of_no_flag s x y (op := .and) rfl, aluStep_next_of_no_flag s x y (op := .xor) rfl⟩⟩

/-- Settles O29: the row of ADD. -/
theorem addRegWritesSumAndCarry : Obligations.AddRegWritesSumAndCarry :=
  ⟨decodesAs_row (.addReg 0 0), fun x y s => aluStep_next_of_row s x y (alu_add_row _ _)⟩

/-- Settles O30: the rows of SUB and SUBN. -/
theorem subtractsWriteDifferenceAndNoBorrow : Obligations.SubtractsWriteDifferenceAndNoBorrow :=
  ⟨decodesAs_row (.subReg 0 0), decodesAs_row (.subnReg 0 0),
    fun x y s => ⟨aluStep_next_of_row s x y (alu_sub_row _ _), aluStep_next_of_row s x y (alu_subn_row _ _)⟩⟩

/-- Settles O31: the rows of SHR and SHL do not read the second operand. -/
theorem shiftsMoveTheBitOutToVF : Obligations.ShiftsMoveTheBitOutToVF :=
  ⟨decodesAs_row (.shr 0 0), decodesAs_row (.shl 0 0),
    fun x y s => ⟨aluStep_shr_next s x y, aluStep_shl_next s x y, fun _ => ⟨rfl, rfl⟩⟩⟩

/-- Settles O32: a carry stands for the 256 that the sum lost, a borrow for the 256 that the difference gained. -/
theorem flagCompletesTheExactResult : Obligations.FlagCompletesTheExactResult := by
  intro x y s notVF
  have := s.v[x].isLt
  have := s.v[y].isLt
  constructor
  case left =>
    obtain ⟨t, next, sum, carry, -⟩ := addRegWritesSumAndCarry.2 x y s
    refine ⟨t, next, ?_⟩
    rw [sum, carry notVF]
    split <;> omega
  case right =>
    obtain ⟨t, next, difference, flag, -⟩ := (subtractsWriteDifferenceAndNoBorrow.2.2 x y s).1
    refine ⟨t, next, ?_⟩
    rw [difference, flag notVF]
    split <;> omega

end Sys2Proof.Machine

/-! # Display (43_display.md R150 to R154, R199)

A draw XORs one list of cells, `State.drawnCells`: its members are the cells that `Covers` names, and none stands in it
twice. What a draw leaves in each cell and in VF is then a fact about that list (`exec_drw_next`), and two draws of the
same list cancel. -/

namespace Sys2Proof.Machine

section
variable (s : State) (x y : Reg) (n : Nibble)

/-! ## The cells a draw covers (R152, R153) -/

/-- The cells that `Dxyn` inverts in state `s`, in the order of the XORs (R152). -/
def State.drawnCells : List Cell :=
  spriteCells (s.originRow y) (s.originCol x) ((List.range n.toNat).map fun k => s.mem.byteAt (s.indexed 0 + k))

theorem State.mem_drawnCells (p : Cell) :
    p ∈ s.drawnCells x y n ↔ Covers s (s.v[y].toNat % 32) (s.v[x].toNat % 64) n.toNat p := by
  rw [State.drawnCells, mem_spriteCells]
  constructor
  · rintro ⟨r, c, b, row, hc, bit, h1, h2⟩
    rw [List.getElem?_map, Option.map_eq_some_iff] at row
    obtain ⟨k, kth, rfl⟩ := row
    obtain ⟨hr, rfl⟩ : r < n.toNat ∧ r = k := by simpa [List.getElem?_eq_some_iff] using kth
    exact ⟨r, c, hr, hc, h1, h2, bit⟩
  · rintro ⟨r, c, hr, hc, h1, h2, bit⟩
    exact ⟨r, c, _, by rw [List.getElem?_map, List.getElem?_range hr]; rfl, hc, bit, h1, h2⟩

theorem State.any_drawnCells (test : Cell → Bool) :
    (s.drawnCells x y n).any test = true ↔
      ∃ p, Covers s (s.v[y].toNat % 32) (s.v[x].toNat % 64) n.toNat p ∧ test p = true := by
  simp only [List.any_eq_true, State.mem_drawnCells]

/-- At most 15 rows, so no cell is reached twice (R153 (d)). -/
theorem State.nodup_drawnCells : (s.drawnCells x y n).Nodup := by
  refine nodup_spriteCells _ _ _ ?_
  have := n.isLt
  rw [List.length_map, List.length_range]
  omega

/-- The cells depend on `I`, the sprite's own bytes and the origin only (R154). -/
theorem State.drawnCells_congr {s s' : State} {x y x' y' : Reg} {n : Nibble} (index : s'.i = s.i)
    (bytes : ∀ r, r < n.toNat → s'.mem.byteAt (s.i.toNat + r) = s.mem.byteAt (s.i.toNat + r))
    (col : s'.v[x'].toNat % 64 = s.v[x].toNat % 64) (row : s'.v[y'].toNat % 32 = s.v[y].toNat % 32) :
    s'.drawnCells x' y' n = s.drawnCells x y n := by
  have rows : (List.range n.toNat).map (fun k => s'.mem.byteAt (s'.indexed 0 + k)) =
      (List.range n.toNat).map fun k => s.mem.byteAt (s.indexed 0 + k) := by
    refine List.map_congr_left fun k hk => ?_
    rw [State.indexed, index]
    exact bytes k (List.mem_range.mp hk)
  have originRow : s'.originRow y' = s.originRow y := row
  have originCol : s'.originCol x' = s.originCol x := col
  rw [State.drawnCells, rows, originRow, originCol, State.drawnCells]

variable {s x y n}

/-- R152, R153: a draw in range inverts its cells, VF tells whether one of them was on, and `redraw` is raised. -/
theorem exec_drw_next (range : n.toNat = 0 ∨ s.i.toNat + n.toNat - 1 ≤ 4095) :
    ∃ t, exec (.drw x y n) s = .next t ∧
      (∀ p, t.fb.pixel p = (s.fb.pixel p ^^ decide (p ∈ s.drawnCells x y n))) ∧
      t.v[vf] = flagByte ((s.drawnCells x y n).any s.fb.pixel) ∧
      t.redraw = true ∧ SameExcept [vf] [] [.screen, .redraw] s t := by
  have fits : n.toNat = 0 ∨ s.indexed 0 + n.toNat ≤ 4096 := by
    rw [State.indexed]
    omega
  have distinct := s.nodup_drawnCells x y n
  refine ⟨_, (execDrw_eq x s y n).trans (if_pos fits), fun p => ?cells, ?flag, rfl, ?frame⟩
  case cells => exact Screen.pixel_xorCells _ s.fb distinct p
  case flag => exact (s.writeV_same vf _).trans (congrArg flagByte (Screen.collides_xorCells _ s.fb distinct))
  case frame => exact ((frame_writeV s vf _).trans (frame_setScreen _ _)).trans (frame_raiseRedraw _)

end

/-! ## The host's view of the pixel buffer (R199) -/

/-- PixelRead answers the concatenation of the rows, a byte for a cell. -/
theorem State.pixelRead_eq (s : State) :
    s.pixelRead = (s.fb.map fun row => row.map fun on => if on then 1#8 else 0#8).flatten.toList := by
  simp [State.pixelRead, Vector.flatten, Vector.toList, Function.comp_def]

theorem State.pixelRead_length (s : State) : s.pixelRead.length = 2048 := by
  rw [State.pixelRead_eq, Vector.length_toList]

/-- R27: byte `r × 64 + c` is the cell of row `r` and column `c`. -/
theorem State.pixelRead_getElem? (s : State) (r : Fin 32) (c : Fin 64) :
    s.pixelRead[r.val * 64 + c.val]? = some (if s.fb.pixel (r, c) then 1#8 else 0#8) := by
  have row : (r.val * 64 + c.val) / 64 = r.val := by omega
  have col : (r.val * 64 + c.val) % 64 = c.val := by omega
  rw [State.pixelRead_eq, Vector.getElem?_toList, Vector.getElem?_flatten, dif_pos (by omega)]
  simp only [row, col, Vector.getElem_map]
  rfl

/-! ## The obligations of 43_display.md -/

/-- Settles O33: the two updates of CLS. -/
theorem clsBlanksAndRaisesClear : Obligations.ClsBlanksAndRaisesClear :=
  ⟨decodesAs_row .cls, fun s => ⟨_, rfl, Screen.pixel_blank, rfl, (frame_setScreen s _).trans (frame_raiseClear _)⟩⟩

/-- Settles O34, from the law of XorPixel and the layout of PixelRead. -/
theorem xorPixelInvertsOneCell : Obligations.XorPixelInvertsOneCell := by
  refine ⟨fun fb p q => ⟨?inverts, fb.xorPixel_collides p⟩, fun s => ⟨s.pixelRead_length, s.pixelRead_getElem?⟩⟩
  case inverts =>
    rw [Screen.pixel_xorPixel]
    split_ifs with same
    · rw [same]
    · rfl

/-- Settles O35: the covered cells are the cells the draw inverts, and VF is the flag of whether one of them was on. -/
theorem drwInvertsTheCoveredCells : Obligations.DrwInvertsTheCoveredCells := by
  refine ⟨decodesAs_row (.drw 0 0 0), fun x y n s range => ?_⟩
  obtain ⟨t, next, cells, flag, redraw, frame⟩ := exec_drw_next (x := x) (y := y) range
  have collides := s.any_drawnCells x y n s.fb.pixel
  refine ⟨t, next, fun p covered => ?inverted, fun p uncovered => ?kept, fun hit => ?hit, fun miss => ?miss,
    redraw, frame⟩
  case inverted => rw [cells, decide_eq_true ((s.mem_drawnCells x y n p).mpr covered), Bool.xor_true]
  case kept => rw [cells, decide_eq_false (mt (s.mem_drawnCells x y n p).mp uncovered), Bool.xor_false]
  case hit => exact flag.trans ((flagByte_eq_one _).mpr (collides.mpr hit))
  case miss => exact flag.trans (congrArg flagByte (Bool.eq_false_iff.mpr (mt collides.mp miss)))

/-- Settles O36: both draws invert the same cells, and a cell of theirs is on after the first when it was off before. -/
theorem doubleDrawRestoresTheScreen : Obligations.DoubleDrawRestoresTheScreen := by
  intro x y x' y' n s range
  obtain ⟨t, next, cells, -⟩ := exec_drw_next (x := x) (y := y) range
  refine ⟨t, next, fun t' sameScreen sameIndex bytes col row => ?_⟩
  obtain ⟨u, next', cells', flag', -⟩ := exec_drw_next (s := t') (x := x') (y := y') (n := n) (by rwa [sameIndex])
  rw [State.drawnCells_congr sameIndex bytes col row, sameScreen] at cells' flag'
  refine ⟨u, next', Screen.ext_pixel fun p => ?restored, ?flag⟩
  case restored => rw [cells', cells, Bool.xor_assoc, Bool.xor_self, Bool.xor_false]
  case flag =>
    rw [flag', flagByte_eq_one, State.any_drawnCells]
    refine exists_congr fun p => and_congr_right fun covered => ?_
    rw [cells, decide_eq_true ((s.mem_drawnCells x y n p).mpr covered), Bool.xor_true, Bool.not_eq_true']

end Sys2Proof.Machine

/-! # The misc/memory group (44_misc_memory.md R160 to R167)

What `Fx55` stores and what `Fx65` loads is said register by register, at the addresses `I + k` (`exec_storeRegs_next`,
`exec_loadRegs_next`); that a load undoes the store is then one after the other. -/

namespace Sys2Proof.Machine

section
variable (s : State) (x : Reg)

/-! ## Values of `I` (R162, R163) -/

theorem zextByte_toNat (b : Byte) : (zextByte b).toNat = b.toNat :=
  BitVec.toNat_setWidth_of_le (by decide)

/-- R163: five times a byte is less than 65536. -/
theorem State.glyphAddress_toNat : (s.glyphAddress x).toNat = 5 * s.v[x].toNat := by
  have := s.v[x].isLt
  rw [State.glyphAddress, BitVec.toNat_mul, zextByte_toNat, State.readV_eq]
  exact Nat.mod_eq_of_lt (show 5 * s.v[x].toNat < 65536 by omega)

/-! ## Stores and loads at `I` (R165 to R167) -/

/-- The frame of a store of `n` bytes at `I`. -/
theorem frame_putAll_indexed {n : Nat} {bytes : List Byte} (length : bytes.length = n) :
    SameExcept [] (s.indexedRange n) [] s (s.setMem (s.mem.putAll (s.indexed 0) bytes)) :=
  length ▸ frame_putAll s (s.indexed 0) bytes

/-- Byte `k` of a store at `I` stands at `I + k`. -/
theorem State.byteAt_putAll_indexed {k : Nat} {bytes : List Byte} {b : Byte} (byte : bytes[k]? = some b) :
    (s.mem.putAll (s.indexed 0) bytes).byteAt (s.indexed k) = b :=
  Memory.byteAt_putAll_of_getElem? (a := s.indexed 0) byte

variable {s x}

/-- R166 in range: `V[k]` stands at `I + k`. -/
theorem exec_storeRegs_next (range : s.i.toNat + x.val ≤ 4095) :
    ∃ t, exec (.storeRegs x) s = .next t ∧ (∀ k : Reg, k ≤ x → t.mem.byteAt (s.indexed k.val) = s.v[k]) ∧
      SameExcept [] (s.indexedRange (blockLength x)) [] s t :=
  ⟨_, exec_storeRegs_inRange range, fun _ inBlock => s.byteAt_putAll_indexed (s.block_getElem? inBlock),
    frame_putAll_indexed s (s.block_length x)⟩

/-- R167 in range: `V[k]` holds the byte at `I + k` in the block, and its old value above it. -/
theorem exec_loadRegs_next (range : s.i.toNat + x.val ≤ 4095) :
    ∃ t, exec (.loadRegs x) s = .next t ∧
      (∀ k : Reg, t.v[k] = if k ≤ x then s.mem.byteAt (s.indexed k.val) else s.v[k]) ∧
      SameExcept ((List.finRange 16).take (blockLength x)) [] [] s t := by
  have fits : s.indexed 0 + blockLength x ≤ 4096 := Nat.succ_le_succ range
  refine ⟨_, (execLoadRegs_eq x s).trans (if_pos fits), fun k => ?loaded, frame_writeBlock s _ x (by simp)⟩
  case loaded =>
    refine (s.writeBlock_get _ k.val k.isLt).trans ?_
    split_ifs with inBlock
    · have inside : k.val < blockLength x := Nat.lt_succ_of_le inBlock
      rw [List.getElem?_map, List.getElem?_range inside]
      rfl
    · have above : blockLength x ≤ k.val := Fin.not_le.mp inBlock
      rw [List.getElem?_eq_none (by simpa using above)]
      rfl

end

/-! ## The obligations of 44_misc_memory.md -/

/-- Settles O42: the three bytes stored are the digits of R164. -/
theorem ldBStoresThreeDigits : Obligations.LdBStoresThreeDigits := by
  refine ⟨decodesAs_row (.ldB 0), fun x s range => ?_⟩
  obtain ⟨h, d, o, digits, hundreds, tens, ones⟩ := bcd_eq s.v[x]
  have next := exec_ldB_inRange (x := x) range
  rw [digits] at next
  rw [← hundreds, ← tens, ← ones]
  have stored {k : Nat} {b : Byte} (byte : [h, d, o][k]? = some b) :=
    congrArg BitVec.toNat (s.byteAt_putAll_indexed byte)
  exact ⟨_, next, stored rfl, stored rfl, stored rfl, frame_putAll_indexed s rfl⟩

/-- Settles O43, from the rule of `Fx55`. -/
theorem storeRegsStoresTheBlock : Obligations.StoreRegsStoresTheBlock :=
  ⟨decodesAs_row (.storeRegs 0), fun _ _ range => exec_storeRegs_next range⟩

/-- Settles O44, from the rule of `Fx65`, for the registers of the block and for those above it. -/
theorem loadRegsLoadsTheBlock : Obligations.LoadRegsLoadsTheBlock := by
  refine ⟨decodesAs_row (.loadRegs 0), fun x s range => ?_⟩
  obtain ⟨t, next, loaded, frame⟩ := exec_loadRegs_next range
  exact ⟨t, next, fun k inBlock => (loaded k).trans (if_pos inBlock),
    fun k above => (loaded k).trans (if_neg (Fin.not_le.mpr above)), frame⟩

/-- Settles O45: the byte that the load reads for a register of the block is the one the store left for it. -/
theorem storeThenLoadRestoresTheBlock : Obligations.StoreThenLoadRestoresTheBlock := by
  intro x s range
  obtain ⟨t, next, stored, -⟩ := exec_storeRegs_next range
  refine ⟨t, next, fun t' sameMem sameIndex => ?_⟩
  obtain ⟨u, next', loaded, -⟩ := exec_loadRegs_next (s := t') (x := x) (by rwa [sameIndex])
  refine ⟨u, next', fun k => ?_⟩
  rw [loaded, sameMem, State.indexed, sameIndex]
  split_ifs with inBlock
  · exact stored k inBlock
  · rfl

/-- Settles O38: the one update of each. -/
theorem delayTimerIsReadAndWritten : Obligations.DelayTimerIsReadAndWritten :=
  ⟨decodesAs_row (.ldVxDT 0), decodesAs_row (.ldDTVx 0), fun x s =>
    ⟨⟨_, rfl, s.writeV_same x _, frame_writeV s x _⟩, ⟨_, rfl, s.readV_eq x, frame_setDT s _⟩⟩⟩

/-- Settles O39: 16-bit addition is the sum modulo 65536, and `I` is all that is written. -/
theorem addIWrapsAtSixteenBits : Obligations.AddIWrapsAtSixteenBits := by
  refine ⟨decodesAs_row (.addI 0), fun x s => ⟨_, rfl, ?sum, frame_setI s _⟩⟩
  case sum => rw [State.setI_i, BitVec.toNat_add, zextByte_toNat, State.readV_eq]

/-- Settles O40: five times the full byte fits in `I`. -/
theorem ldFMultipliesByFive : Obligations.LdFMultipliesByFive :=
  ⟨decodesAs_row (.ldF 0), fun x s => ⟨_, rfl, s.glyphAddress_toNat x, frame_setI s _⟩⟩

/-- Settles O41: from the digits as quotients and remainders, their sum and their bounds are arithmetic. -/
theorem bcdSplitsIntoDigits : Obligations.BcdSplitsIntoDigits := by
  intro b
  have := b.isLt
  obtain ⟨h, d, o, digits, hundreds, tens, ones⟩ := bcd_eq b
  exact ⟨h, d, o, digits, hundreds, tens, ones, by omega, by omega, by omega, by omega⟩

end Sys2Proof.Machine

/-! # Conditions and the host (60_exceptions.md R180 to R201)

An instruction that leaves the call stack alone reports an access out of range or reports nothing
(`exec_outOfRange_or_quiet`). With CALL and RET beside it, this says of every instruction that it answers a next state, how
much it reports and what becomes of the stack's depth; the step adds the failed fetch and the illegal words. -/

namespace Sys2Proof.Machine

section
variable {s t : State}

/-! ## Illegal words (R182, R183) -/

/-- A step that reports `c` at the advanced state changes `pc` and the report only. -/
theorem step_only_reports {c : Condition} (stepped : step s = .next (s.advance.report c)) :
    ∃ t, step s = .next t ∧ t.pc = s.pc + 2 ∧ Reported c s t ∧ SameExcept [] [] [.pc, .reports] s t :=
  ⟨_, stepped, rfl, ⟨rfl, rfl⟩, ((frame_advance s).trans (frame_report _ c)).within⟩

/-! ## Reports and the depth of the call stack, instruction by instruction (R180, R189) -/

/-- Between `s` and `t` nothing is reported. -/
def Quiet (s t : State) : Prop := t.cond = s.cond ∧ t.condLog = s.condLog

/-- R189: between `s` and `t` nothing is reported, or one condition. -/
def ReportsAtMostOnce (s t : State) : Prop := Quiet s t ∨ ∃ c, Reported c s t

/-- A depth that is kept stays legal. -/
theorem StackDepthLegal.ofSame (legal : StackDepthLegal s) (same : t.sp = s.sp) : StackDepthLegal t := by
  unfold StackDepthLegal at legal ⊢
  rwa [same]

/-- A frame without the reports is quiet. -/
theorem SameExcept.quiet {r : List Reg} {m : List Nat} {p : List Part} (frame : SameExcept r m p s t)
    (silent : Part.reports ∉ p := by simp) : Quiet s t :=
  frame.reports silent

/-- R65: an instruction that tests its range first only reports, when what it does in range is quiet. -/
theorem ranged_outOfRange_or_quiet {fits : Prop} [Decidable fits] {i : Instr} {out : Result}
    (meaning : out = if fits then .next t else outOfRange i s) (quiet : Quiet s t) :
    out = outOfRange i s ∨ ∃ t, out = .next t ∧ Quiet s t := by
  split at meaning
  · exact .inr ⟨t, meaning, quiet⟩
  · exact .inl meaning

/-- R186: an instruction that leaves the call stack alone reports an access out of range, or answers a next state and
reports nothing. -/
theorem exec_outOfRange_or_quiet {i : Instr} (noStack : Part.stack ∉ writtenParts i) :
    exec i s = outOfRange i s ∨ ∃ t, exec i s = .next t ∧ Quiet s t := by
  cases i with
  | ret | call _ => exact absurd (by simp [writtenParts]) noStack
  | cls | jp _ | jpV0 _ | ldI _ | addI _ | ldF _ => exact .inr ⟨_, rfl, rfl, rfl⟩
  | ldImm _ _ | addImm _ _ | ldVxDT _ | ldDTVx _ => exact .inr ⟨_, rfl, rfl, rfl⟩
  | ldReg _ _ | orReg _ _ | andReg _ _ | xorReg _ _ => exact .inr ⟨_, rfl, rfl, rfl⟩
  | addReg _ _ | subReg _ _ | shr _ _ | subnReg _ _ | shl _ _ => exact .inr ⟨_, rfl, rfl, rfl⟩
  | rnd x kk => exact .inr ⟨_, rfl, s.advanceRnd_cond, s.advanceRnd_condLog⟩
  | seImm _ _ | sneImm _ _ | seReg _ _ | sneReg _ _ => exact .inr ⟨_, rfl, (frame_skipIf s _).quiet⟩
  | skp x =>
    cases key : s.keyOf x with
    | none => exact .inl (exec_keySkip_outOfRange key (by simp))
    | some pressed => exact .inr ⟨_, exec_skp_of_key key, (frame_skipIf s _).quiet⟩
  | sknp x =>
    cases key : s.keyOf x with
    | none => exact .inl (exec_keySkip_outOfRange key (by simp))
    | some pressed => exact .inr ⟨_, exec_sknp_of_key key, (frame_skipIf s _).quiet⟩
  | drw x y n => exact ranged_outOfRange_or_quiet (execDrw_eq x s y n) ⟨rfl, rfl⟩
  | ldB x => exact ranged_outOfRange_or_quiet (execLdB_eq x s) ⟨rfl, rfl⟩
  | storeRegs x => exact ranged_outOfRange_or_quiet (execStoreRegs_eq x s) ⟨rfl, rfl⟩
  | loadRegs x => exact ranged_outOfRange_or_quiet (execLoadRegs_eq x s) ⟨rfl, rfl⟩

/-- R186: so it answers a next state, with one report at most and the depth it found. -/
theorem exec_next_of_noStack {i : Instr} (noStack : Part.stack ∉ writtenParts i) :
    ∃ t, exec i s = .next t ∧ ReportsAtMostOnce s t ∧ (StackDepthLegal s → StackDepthLegal t) := by
  have depth {t : State} (next : exec i s = .next t) (legal : StackDepthLegal s) : StackDepthLegal t :=
    legal.ofSame ((frame_exec next).stack noStack).2
  obtain reported | ⟨t, next, quiet⟩ := exec_outOfRange_or_quiet (s := s) noStack
  · exact ⟨_, reported, .inr ⟨_, rfl, rfl⟩, depth reported⟩
  · exact ⟨t, next, .inl quiet, depth next⟩

/-- R105, R184: CALL goes one deeper when there is room, and reports otherwise. -/
theorem exec_call_next (nnn : Addr) (s : State) :
    ∃ t, exec (.call nnn) s = .next t ∧ ReportsAtMostOnce s t ∧ (StackDepthLegal s → StackDepthLegal t) := by
  obtain room | full := Nat.lt_or_ge s.sp.toNat 16
  · obtain ⟨t, pushed, -, -, deeper, frame⟩ := s.push_room s.pc room
    have depth : t.sp.toNat ≤ 16 := by omega
    exact ⟨_, exec_call_of_push pushed, .inl frame.quiet, fun _ => depth⟩
  · exact ⟨_, exec_call_full nnn full, .inr ⟨_, rfl, rfl⟩, fun legal => legal.ofSame rfl⟩

/-- R106, R185: from a legal depth RET comes one up, or reports that the stack is empty. -/
theorem exec_ret_next (legal : StackDepthLegal s) :
    ∃ t, exec .ret s = .next t ∧ ReportsAtMostOnce s t ∧ StackDepthLegal t := by
  have depth : s.sp.toNat ≤ 16 := legal
  cases entries : s.sp.toNat with
  | zero => exact ⟨_, exec_ret_empty entries, .inr ⟨_, rfl, rfl⟩, legal.ofSame rfl⟩
  | succ k =>
    obtain ⟨t, popped, -, -, shallower, frame⟩ := s.pop_slot ⟨k, by omega⟩ entries
    have kept : t.sp.toNat ≤ 16 := by omega
    exact ⟨_, exec_ret_of_pop popped, .inl frame.quiet, kept⟩

/-- R180, R189: an instruction answers a next state, with one report at most; only RET needs a legal depth for it. -/
theorem exec_next (i : Instr) (slots : i = .ret → StackDepthLegal s) :
    ∃ t, exec i s = .next t ∧ ReportsAtMostOnce s t ∧ (StackDepthLegal s → StackDepthLegal t) := by
  cases i with
  | ret =>
    obtain ⟨t, next, once, kept⟩ := exec_ret_next (slots rfl)
    exact ⟨t, next, once, fun _ => kept⟩
  | call nnn => exact exec_call_next nnn s
  | _ => exact exec_next_of_noStack (by simp [writtenParts])

/-- R189: what an instruction answers reports one condition at most, from any state. -/
theorem exec_reports_at_most_once {i : Instr} (h : exec i s = .next t) : ReportsAtMostOnce s t := by
  have slots : i = .ret → StackDepthLegal s := by
    rintro rfl
    refine Nat.le_of_not_lt fun beyond => ?_
    rw [retBeyondTheSlotsFaults s beyond] at h
    cases h
  obtain ⟨u, next, once, -⟩ := exec_next i slots
  cases next.symm.trans h
  exact once

/-- R180, R193, R201: the step adds what fetch and decode report, and these leave the stack alone. -/
theorem step_next (legal : StackDepthLegal s) : ∃ t, step s = .next t ∧ StackDepthLegal t := by
  cases fetched : s.fetch with
  | none => exact ⟨_, step_of_unfetched fetched, legal.ofSame rfl⟩
  | some ir =>
    have advanced : StackDepthLegal s.advance := legal.ofSame rfl
    cases decoded : decode ir with
    | unknownOpcode => exact ⟨_, step_of_unknown fetched decoded, advanced.ofSame rfl⟩
    | invalidOpcodeFormat => exact ⟨_, step_of_invalid fetched decoded, advanced.ofSame rfl⟩
    | instr i =>
      obtain ⟨t, next, -, kept⟩ := exec_next i fun _ => advanced
      exact ⟨t, (step_of_instr fetched decoded).trans next, kept advanced⟩

/-! ## What the host does (R196 to R198) -/

/-- R197: subtraction of natural numbers, which stops at 0. -/
theorem State.timerTick_dt_toNat (s : State) : s.timerTick.dt.toNat = s.dt.toNat - 1 := by
  rw [State.timerTick_dt]
  split_ifs with zero
  · simp [zero]
  · bv_omega

/-- R196. -/
theorem State.keyWrite_get (s : State) (k j : Fin 16) (b : Bool) :
    (s.keyWrite k b).key[j] = if k = j then b else s.key[j] := by
  simp [Vector.getElem_set, Fin.ext_iff]

/-- R198. -/
theorem frame_signalReadClear (s : State) : SameExcept [] [] [.redraw, .clear] s s.signalReadClear.2 := by
  apply SameExcept.ofParts <;> simp [State.signalReadClear]

end

/-! ## The obligations of 60_exceptions.md -/

/-- Settles O9: the word fetched is reported at the advanced state. -/
theorem unknownWordOnlyReports : Obligations.UnknownWordOnlyReports := by
  refine ⟨by decide, fun s ir range word decoded => step_only_reports ?_⟩
  exact step_of_unknown (word ▸ State.fetch_of_bytes range rfl rfl) decoded

/-- Settles O10, as O9. -/
theorem invalidFormatWordOnlyReports : Obligations.InvalidFormatWordOnlyReports := by
  refine fun s ir range word decoded => step_only_reports ?_
  exact step_of_invalid (word ▸ State.fetch_of_bytes range rfl rfl) decoded

/-- Settles O48, by what is fetched and what it decodes to. -/
theorem everyStepAnswersANextState : Obligations.EveryStepAnswersANextState :=
  fun _ legal => step_next legal

/-- Settles O49: an instruction runs at the advanced state, where the condition output is empty and the record that of
before. -/
theorem atMostOneReportPerStep : Obligations.AtMostOneReportPerStep := by
  intro s t h
  obtain ⟨-, rfl⟩ | ⟨-, ⟨_, -, rfl⟩ | ⟨_, -, rfl⟩ | ⟨_, _, -, executed⟩⟩ := step_cases h
  · exact .inr ⟨_, rfl, rfl⟩
  · exact .inr ⟨_, rfl, rfl⟩
  · exact .inr ⟨_, rfl, rfl⟩
  · exact exec_reports_at_most_once executed

/-- Settles O58, by induction on the number of ticks. -/
theorem timerTicksDownToZero : Obligations.TimerTicksDownToZero := by
  refine ⟨frame_timerTick, fun k => ?_⟩
  induction k with
  | zero => exact fun _ => rfl
  | succ k ih =>
    intro s
    rw [Function.iterate_succ_apply, ih, State.timerTick_dt_toNat]
    omega

/-- Settles O56, row by row. -/
theorem conditionCodesFollowTheTable : Obligations.ConditionCodesFollowTheTable := by
  refine ⟨fun s silent => ?silent, fun s c reported => ?reported, fun _ _ => ⟨rfl, rfl, rfl, rfl, rfl, rfl⟩,
    fun _ => rfl, fun _ => rfl⟩
  case silent => rw [State.condCode, silent]
  case reported => rw [State.condCode, reported]

/-- Settles O57: a key read after a key write, and the two updates written out. -/
theorem keyWriteAndSignalReadClear : Obligations.KeyWriteAndSignalReadClear :=
  ⟨fun k b s => ⟨(s.keyWrite_get k k b).trans (if_pos rfl),
      fun j other => (s.keyWrite_get k j b).trans (if_neg other.symm), rfl⟩,
    fun s => ⟨rfl, rfl, rfl, frame_signalReadClear s⟩⟩

end Sys2Proof.Machine

/-! # Reset, Load and the end of a run (70_reset_and_hazards.md R210 to R219)

Any `pc` that fetches fits in the 12 bits of a jump's target, so the word `0x1000 | pc` is a jump to `pc` itself. -/

namespace Sys2Proof.Machine

section
variable {s : State} {ir : Word}

/-! ## The jump to its own address (R104, R219) -/

/-- R86: the family nibble 1 above the 12 bits of the target. -/
theorem encode_jp (nnn : Addr) : encode (.jp nnn) = 0x1000#16 ||| zextAddr nnn :=
  BitVec.append_def 0x1#4 nnn

/-- R101. -/
theorem State.pc_le_of_fetch (fetched : s.fetch = some ir) : s.pc.toNat ≤ 4094 := by
  by_contra above
  rw [State.fetch_eq, if_neg above] at fetched
  cases fetched

/-- R101, R104: a jump can name every `pc` that fetches. -/
theorem zextAddr_pc_of_fetch (fetched : s.fetch = some ir) : zextAddr (s.pc.setWidth 12) = s.pc := by
  have range := State.pc_le_of_fetch fetched
  apply BitVec.eq_of_toNat_eq
  rw [zextAddr_toNat, BitVec.toNat_setWidth, Nat.mod_eq_of_lt (by omega)]

/-- R104, R219: the word at the end of a run. -/
theorem decode_of_atEndOfRun (atEnd : AtEndOfRun s) : decode (0x1000#16 ||| s.pc) = .instr (.jp (s.pc.setWidth 12)) := by
  have word : 0x1000#16 ||| s.pc = encode (.jp (s.pc.setWidth 12)) := by rw [encode_jp, zextAddr_pc_of_fetch atEnd]
  rw [word, decode_encode]

end

/-! ## The obligations of 70_reset_and_hazards.md -/

/-- Settles O55: the jump takes the advanced `pc` back, and only the condition output was emptied. -/
theorem selfJumpChangesNoState : Obligations.SelfJumpChangesNoState := by
  intro s atEnd
  calc step s
    _ = exec (.jp (s.pc.setWidth 12)) s.advance := step_of_instr atEnd (decode_of_atEndOfRun atEnd)
    _ = .next (s.advance.setPc (zextAddr (s.pc.setWidth 12))) := rfl
    _ = .next (s.advance.setPc s.pc) := by rw [zextAddr_pc_of_fetch atEnd]

/-- Settles O59, by whether the image fits: what is stored reads back, and a store changes only what it stores to. -/
theorem loadCopiesTheImageOrNothing : Obligations.LoadCopiesTheImageOrNothing := by
  refine fun image s => ⟨fun long => ?refused, fun fits => ?copied⟩
  case refused => rw [State.load_eq, if_neg (by omega)]
  case copied =>
    have loaded : s.load image = .ok (s.setMem (s.mem.putAll 0x200 image)) := by rw [State.load_eq, if_pos fits]
    exact ⟨_, loaded, fun k => Memory.byteAt_putAll_stored s.mem 0x200 k image, frame_putAll s 0x200 image⟩

/-- Settles O60: Reset is the state after power-on with the random source of before put into it. -/
theorem hostResetGivesTheResetState : Obligations.HostResetGivesTheResetState :=
  fun _ => ⟨rfl, rfl, rfl⟩

end Sys2Proof.Machine
